-- ==== Sys2Proof/Word.lean ====
section
/-! DEFINITION. The word types of the block: a byte, a bit string, a status-register number (R6, R25). Counts and
command words are plain naturals, bounded by `CNTW` (log 9). -/

namespace Sys2Proof

/-- A byte, an unsigned value 0..255: a symbol, a packed byte, a byte operand (R6, R41). -/
abbrev Byte := BitVec 8

/-- A finite bit string, first bit first (R6). -/
abbrev Bits := List Bool

/-- A status-register number, 0..31 (R61 format R). -/
abbrev RegNum := BitVec 5

end Sys2Proof
end

