-- ==== Sys2Proof/Config.lean ====
section
/-! DEFINITION. What is fixed for one block: the constants of R5 and the two parameters of an instance, the counter
width `CNTW` and the ROM image `IMG`. -/

namespace Sys2Proof

/-- `SYMW`: bits of a symbol (R5). -/
def Config.symW : Nat := 8

/-- `NSYMS`: ROM entries, one per symbol (R5). -/
def Config.nsyms : Nat := 256

/-- `BYTEW`: bits per packed byte (R5). -/
def Config.byteW : Nat := 8

/-- `LMAX`: the largest code length the ROM can hold (R5, R88, C6). -/
def Config.lmax : Nat := 255

/-- `LENW`: width of the ROM length field (R5). -/
def Config.lenW : Nat := 8

/-- The default of `CNTW` (R5). -/
def Config.cntwDefault : Nat := 32

/-- The least `CNTW` an instance may have (R5, C8). -/
def Config.cntwMin : Nat := 9

/-- One ROM entry (R100): the code length, 0 for an absent symbol, and the code bits, right-justified. -/
structure RomEntry where
  len  : BitVec 8
  bits : BitVec 255
deriving DecidableEq, Repr

/-- What a symbol that the image does not list holds: the absent entry (R100, log 11). -/
def RomEntry.absent : RomEntry := ⟨0, 0⟩

/-- The ROM image `IMG` (R5, R11): 256 entries, held as the list of the symbols that differ from the absent entry, in
rising order of symbol (log 11). -/
abbrev Image := List (Byte × RomEntry)

/-- The one canonical form of an image: symbols strictly rising and no entry equal to the absent one, so that equal
images are equal data. -/
abbrev Image.wf (img : Image) : Prop :=
  img.Pairwise (fun a b => a.1.toNat < b.1.toNat) ∧ ∀ c ∈ img, c.2 ≠ RomEntry.absent

/-- The two parameters of an instance (R5): fixed for its life, written by no command (R51, R108). -/
structure Params where
  cntw : Nat
  rom  : Image
deriving DecidableEq, Repr

/-- What R5 asks of the parameters: `CNTW` at least 9 and an image in its canonical form. -/
abbrev Params.wf (p : Params) : Prop := Config.cntwMin ≤ p.cntw ∧ Image.wf p.rom

end Sys2Proof
end

