-- ==== Sys2Proof/Machine/Bits.lean ====
section
/-! DEFINITION. Bit strings and bytes (R6, R42): numerals, the bits of a byte, the packing of a bit string. -/

namespace Sys2Proof.Machine

/-- `bits_L(v)`, the `L`-bit numeral of `v`, most significant bit first (R6). -/
def bitsOf : Nat → Nat → Bits
  | 0, _ => []
  | L + 1, v => v.testBit L :: bitsOf L v

/-- `val(s)`, the number whose binary numeral is `s`, first bit most significant (R6). -/
def valOf (s : Bits) : Nat := s.foldl (fun a b => 2 * a + b.toNat) 0

/-- The bits of a byte in stream order, bit 7 first (R42). -/
def byteBits (b : Byte) : Bits := bitsOf 8 b.toNat

/-- Packed byte `k` of the bit string `s`: the sum over `j` of `S'[8k+j] * 2^(7-j)`, `S'` being `s` extended by zeros
(R42, R115). -/
def packByte (s : Bits) (k : Nat) : Byte :=
  BitVec.ofNat 8 (((List.range 8).map (fun j => (s.getD (8 * k + j) false).toNat * 2 ^ (7 - j))).sum)

/-- `Pack(S)`: `ceil(|S| / 8)` bytes (R44, R115). -/
def pack (s : Bits) : List Byte := (List.range ((s.length + 7) / 8)).map (packByte s)

end Sys2Proof.Machine
end

