-- ==== Sys2Proof/Machine/Rom.lean ====
section
/-! DEFINITION. The code-table ROM (R100 to R110): its entries, the two read primitives, the derived quantities and the
predicates on an image. Everything reads the image through `romEntry`. -/

namespace Sys2Proof.Machine

/-- Entry `s` of the ROM (R100): every symbol has one; a symbol the image does not list holds the absent entry. -/
def romEntry (img : Image) (s : Byte) : RomEntry := (img.lookup s).getD RomEntry.absent

/-- `LEN[s]` (R100). -/
def romLen (img : Image) (s : Byte) : Nat := (romEntry img s).len.toNat

/-- `code(s)` (R101): the low `LEN[s]` bits of `BITS[s]`, first bit of the code highest; the bits above are ignored.
DESIGN CHOICE (log 18): R101 leaves the code of an absent symbol undefined, and here it is the empty bit string. -/
def romCode (img : Image) (s : Byte) : Bits := bitsOf (romLen img s) (romEntry img s).bits.toNat

/-- `Present(s)` (R102). -/
abbrev Present (img : Image) (s : Byte) : Prop := romLen img s ≠ 0

/-- The present symbols, each once. -/
def presentSyms (img : Image) : List Byte := (img.map Prod.fst).dedup.filter (fun s => Present img s)

/-- `RomLookup(s)` (R103). -/
def romLookup (img : Image) (s : Byte) : Option Bits :=
  if Present img s then some (romCode img s) else none

/-- The answer of `RomMatch` (R104). -/
inductive MatchResult where
  | none
  | some (s : Byte)
  /-- More than one candidate: no value is picked (R104, R110). -/
  | unspecified
deriving DecidableEq, Repr

/-- The set `M` of R104: the symbols of code length `L` whose code is `p`. -/
def romCandidates (img : Image) (L : Nat) (p : Bits) : List Byte :=
  (presentSyms img).filter (fun s => romLen img s = L ∧ romCode img s = p)

/-- `RomMatch(L, p)` (R104). -/
def romMatch (img : Image) (L : Nat) (p : Bits) : MatchResult :=
  match romCandidates img L p with
  | [] => .none
  | [s] => .some s
  | _ :: _ :: _ => .unspecified

/-- `MAXLEN` (R105), 0 for the empty image. -/
def maxLen (img : Image) : Nat := ((presentSyms img).map (romLen img)).foldl max 0

/-- `NCODES` (R106). -/
def nCodes (img : Image) : Nat := (presentSyms img).length

/-- `Distinct(IMG)` (R107), in the form the decode commands evaluate: the codes of the present symbols do not repeat.
`distinct_iff` (Laws) says that this is the rule's own wording. -/
abbrev Distinct (img : Image) : Prop := ((presentSyms img).map (romCode img)).Nodup

/-- `PrefixFree(IMG)` (R107). -/
def PrefixFree (img : Image) : Prop :=
  ∀ s t, Present img s → Present img t → s ≠ t → ¬ romCode img s <+: romCode img t

/-- Kraft's sum scaled by `2^LMAX`: the sum over the present symbols of `2^(LMAX - LEN[s])` (R107). -/
def kraftSum (img : Image) : Nat := ((presentSyms img).map (fun s => 2 ^ (Config.lmax - romLen img s))).sum

/-- `Kraft(IMG)` (R107): the sum of `2^(-LEN[s])` is at most 1. -/
abbrev Kraft (img : Image) : Prop := kraftSum img ≤ 2 ^ Config.lmax

/-- A full table: Kraft's sum is exactly 1 (R88, R138). -/
abbrev KraftFull (img : Image) : Prop := kraftSum img = 2 ^ Config.lmax

/-- `Covers(IMG, B)` (R107). -/
abbrev Covers (img : Image) (B : List Byte) : Prop := ∀ b ∈ B, Present img b

/-- `Canonical(IMG)` (R107): the ignored high bits are zero, and all of `BITS[s]` where `LEN[s] = 0`. -/
def CanonicalEntry (e : RomEntry) : Prop := e.bits.toNat < 2 ^ e.len.toNat

/-- `Canonical(IMG)` (R107). -/
def Canonical (img : Image) : Prop := ∀ s, CanonicalEntry (romEntry img s)

/-- The image of a list of (symbol, code) pairs, the tuples of R67 and R90: symbols in rising order, `LEN` the code's
length, `BITS` its value; the first pair of a symbol counts, and a pair with an empty code gives no entry. -/
def imageOf (t : List (Byte × Bits)) : Image :=
  (List.range Config.nsyms).filterMap (fun k =>
    match t.lookup (BitVec.ofNat 8 k) with
    | none => none
    | some c =>
      if c = [] then none else some (BitVec.ofNat 8 k, ⟨BitVec.ofNat 8 c.length, BitVec.ofNat 255 (valOf c)⟩))

end Sys2Proof.Machine
end

