-- ==== Sys2Proof/Syntax.lean ====
section
/-! DEFINITION. The commands of the block (R62): one constructor per row of spec/opcode_table.json, with the operand
its format gives it (R61, R64). -/

namespace Sys2Proof

/-- A command. -/
inductive Instr where
  /-- ENC_START (R116), format Z. -/
  | encStart
  /-- ENC_PUT b (R117), format B: the next input byte. -/
  | encPut (b : Byte)
  /-- ENC_END (R118), format Z. -/
  | encEnd
  /-- DEC_START n (R131), format N: the count of valid bits, `CNTW` bits wide (`Instr.wf`). -/
  | decStart (n : Nat)
  /-- DEC_PUT p (R132), format B: the next packed byte. -/
  | decPut (p : Byte)
  /-- DEC_END (R134), format Z. -/
  | decEnd
  /-- RDREG r (R150), format R: a status-register number. -/
  | rdreg (r : RegNum)
  /-- RST (R151), format Z. -/
  | rst
deriving DecidableEq, Repr

/-- The sixteen status registers of R25, each under its own name. -/
inductive StatusReg where
  | encPhase | encErr | encEinfo | encNbits | encNsym | encNacc | encAcc
  | decPhase | decErr | decEinfo | decNbits | decPos | decPlen | decNout
  | tblMaxlen | tblNcodes
deriving DecidableEq, Repr

/-- The two units a command can belong to (R1, R49). -/
inductive UnitName where
  | enc | dec
deriving DecidableEq, Repr

/-- The unit whose session a command belongs to (R62, column `unit`): RDREG belongs to none and RST to both. -/
def Instr.unit? : Instr → Option UnitName
  | .encStart => some .enc
  | .encPut _ => some .enc
  | .encEnd => some .enc
  | .decStart _ => some .dec
  | .decPut _ => some .dec
  | .decEnd => some .dec
  | .rdreg _ => none
  | .rst => none

end Sys2Proof
end

