-- ==== Sys2Proof/Machine/State.lean ====
section
/-! DEFINITION. The state of the block (R10 to R29) as plain data, with the two ports of R4; the outcomes; reset. -/

namespace Sys2Proof.Machine

/-- `PHASE` (R12, R17), 2 bits, one name for each of its four values. -/
inductive Phase where
  | idle | active | done | error
deriving DecidableEq, Repr

/-- The error kinds of R160. `emptyInput` belongs to the host-side tree builder; the block never raises it (R161). -/
inductive ErrorKind where
  | emptyInput | byteNotInTable | truncated | malformed | countOverflow
deriving DecidableEq, Repr

/-- The status of a response (R65): the two successes, an error kind, or the refusal of an illegal command. -/
inductive Status where
  | ok
  | nothing
  | err (e : ErrorKind)
  | illegalCmd
deriving DecidableEq, Repr

/-- A response word by its two fields (R65). -/
structure Response where
  status : Status
  value  : Nat
deriving DecidableEq, Repr

/-- The status flags of one unit: `PHASE`, `ERR` and `EINFO` (R12, R15, R17, R21, R26). `err = none` is the value 0
of `ERR`; `einfo` is `CNTW` bits wide (log 9). -/
structure UnitFlags where
  phase : Phase
  err   : Option ErrorKind
  einfo : Nat
deriving DecidableEq, Repr

/-- Unit ENC (R12 to R16). -/
structure Encoder where
  flags : UnitFlags
  /-- `ENC.ACC` (R13). -/
  acc   : BitVec 8
  /-- `ENC.NACC`, 3 bits (R13). -/
  nacc  : Fin 8
  /-- `ENC.NBITS`, `CNTW` bits (R14). -/
  nbits : Nat
  /-- `ENC.NSYM`, `CNTW` bits (R14). -/
  nsym  : Nat
  /-- `ENC.OUT`, first byte first (R16). -/
  out   : List Byte
deriving DecidableEq, Repr

/-- Unit DEC (R17 to R22). `DEC.PLEN` is the length of `DEC.PFX` and is held there (`Decoder.plen`, log 10). -/
structure Decoder where
  flags : UnitFlags
  /-- `DEC.NBITS`, `CNTW` bits (R18). -/
  nbits : Nat
  /-- `DEC.POS`, `CNTW` bits (R18). -/
  pos   : Nat
  /-- `DEC.PFX`, the pending prefix, earliest bit first (R19, R29). -/
  pfx   : Bits
  /-- `DEC.NOUT`, `CNTW` bits (R20). -/
  nout  : Nat
  /-- `DEC.OUT`, first symbol first (R22). -/
  out   : List Byte
deriving DecidableEq, Repr

/-- The machine: the two units (R10), the parameters of the instance (R5, log 1), and the two ports of R4: the words
the host is going to present, next one first (log 3), and the last response, if any command was answered (log 5). -/
structure State where
  params   : Params
  enc      : Encoder
  dec      : Decoder
  commands : List Nat
  resp     : Option Response
deriving DecidableEq, Repr

/-- How the machine stops with a fault. No rule of the spec stops the block: an error is a response (R167). -/
inductive Fault where
  /-- Raised by `step` when the number on the command port does not fit `CMDW` bits. Safe: the hardware's port cannot
  carry such a number (R60, log 7). -/
  | notAWord
deriving DecidableEq, Repr

/-- Why a step is refused. -/
inductive Refusal where
  /-- Raised by an arm of `exec` for a command without a meaning. Safe. No arm raises it. -/
  | notModelled (mnemonic : String)
  /-- Raised by the decode commands when the image holds one code for two symbols: the spec leaves `RomMatch`
  unspecified there and asks a model to refuse the decode session (R110, U11). Safe. -/
  | ambiguousImage
deriving DecidableEq, Repr

/-- The flags after reset: IDLE, no error (R28). -/
def UnitFlags.reset : UnitFlags := ⟨.idle, none, 0⟩

/-- Unit ENC after reset (R28). -/
def Encoder.reset : Encoder := ⟨UnitFlags.reset, 0, 0, 0, 0, []⟩

/-- Unit DEC after reset (R28). -/
def Decoder.reset : Decoder := ⟨UnitFlags.reset, 0, 0, [], 0, []⟩

/-- Power-on reset of the instance with parameters `p` (R28, R190): every register of both units at zero, the ROM as
it is (R191), nothing presented and nothing answered yet. -/
def State.resetWith (p : Params) : State := ⟨p, Encoder.reset, Decoder.reset, [], none⟩

/-- The machine right after reset: `State.resetWith` at the default `CNTW` and the empty image (R5, R109, log 2). -/
def State.reset : State := State.resetWith ⟨Config.cntwDefault, []⟩

/-! Updates of one field; `Sys2Proof/Laws/State.lean` has one lemma per field for each. -/

/-- Write unit ENC. -/
def State.setEnc (s : State) (e : Encoder) : State := { s with enc := e }

/-- Write unit DEC. -/
def State.setDec (s : State) (d : Decoder) : State := { s with dec := d }

/-- Drive the response port. -/
def State.setResp (s : State) (r : Response) : State := { s with resp := some r }

/-- Set what the host is going to present. -/
def State.setCommands (s : State) (ws : List Nat) : State := { s with commands := ws }

/-- Write the flags of ENC. -/
def Encoder.setFlags (e : Encoder) (f : UnitFlags) : Encoder := { e with flags := f }

/-- Write the flags of DEC. -/
def Decoder.setFlags (d : Decoder) (f : UnitFlags) : Decoder := { d with flags := f }

/-- The outcome of a command. -/
abbrev Result := Host.Outcome State Fault Refusal

end Sys2Proof.Machine
end

