-- ==== Sys2Proof/Machine/Flags.lean ====
section
/-! DEFINITION. The status flags (R26): the codes of the phases, errors and statuses, what each event writes into a
unit's flags, the legality of a command by phase (R166), and the response word (R65). -/

namespace Sys2Proof.Machine

/-- The value of a `PHASE` register (R12). -/
def Phase.code : Phase → Nat
  | .idle => 0
  | .active => 1
  | .done => 2
  | .error => 3

/-- The status code of an error kind (R65, R160). -/
def ErrorKind.code : ErrorKind → Nat
  | .emptyInput => 0x8
  | .byteNotInTable => 0x9
  | .truncated => 0xA
  | .malformed => 0xB
  | .countOverflow => 0xC

/-- The status codes (R65). -/
def Status.code : Status → Nat
  | .ok => 0x0
  | .nothing => 0x1
  | .err e => e.code
  | .illegalCmd => 0xF

/-- The value of an `ERR` register: 0 or the code of the error (R15, R21). -/
def errCode : Option ErrorKind → Nat
  | none => 0
  | some e => e.code

/-- What a START command writes into its unit's flags (R116, R131). -/
def openFlags : UnitFlags := ⟨.active, none, 0⟩

/-- What an END command that succeeds writes: `PHASE <- DONE` (R118, R134). -/
def doneFlags (f : UnitFlags) : UnitFlags := { f with phase := .done }

/-- What error entry writes (R167). -/
def errorFlags (e : ErrorKind) (info : Nat) : UnitFlags := ⟨.error, some e, info⟩

/-- Whether a PUT or END command of a unit in phase `p` is legal (R166). -/
def sessionOpen (p : Phase) : Bool :=
  match p with
  | .idle => false
  | .active => true
  | .done => false
  | .error => false

/-- `DEC.PLEN`, the length of the pending prefix (R19). -/
def Decoder.plen (d : Decoder) : Nat := d.pfx.length

/-- Legality by phase (R166): ENC commands by `ENC.PHASE`, DEC commands by `DEC.PHASE`, the others always. -/
def legalByPhase (i : Instr) (s : State) : Bool :=
  match i with
  | .encStart => true
  | .encPut _ => sessionOpen s.enc.flags.phase
  | .encEnd => sessionOpen s.enc.flags.phase
  | .decStart _ => true
  | .decPut _ => sessionOpen s.dec.flags.phase
  | .decEnd => sessionOpen s.dec.flags.phase
  | .rdreg _ => true
  | .rst => true

/-- The response word of `CMDW` bits: `status` above `value` (R65). -/
def Response.word (cntw : Nat) (r : Response) : Nat := r.status.code * 2 ^ cntw + r.value

end Sys2Proof.Machine
end

