-- ==== Sys2Proof/Machine/Operands.lean ====
section
/-! DEFINITION. The operand forms (R61, R64) and the status-register space (R25). -/

namespace Sys2Proof.Machine

/-- A byte operand as a number: unsigned, zero-extended, never sign-extended (R41, R64). -/
def byteValue (b : Byte) : Nat := b.toNat

/-- Whether a count operand fits the `CNTW` bits of its field (R61 format N, log 13). -/
def countFits (p : Params) (n : Nat) : Bool := decide (n < 2 ^ p.cntw)

/-- The register a number names, `none` for a reserved number (R25). -/
def statusRegOf (r : RegNum) : Option StatusReg :=
  match r.toNat with
  | 0 => some .encPhase
  | 1 => some .encErr
  | 2 => some .encEinfo
  | 3 => some .encNbits
  | 4 => some .encNsym
  | 5 => some .encNacc
  | 6 => some .encAcc
  | 8 => some .decPhase
  | 9 => some .decErr
  | 10 => some .decEinfo
  | 11 => some .decNbits
  | 12 => some .decPos
  | 13 => some .decPlen
  | 14 => some .decNout
  | 16 => some .tblMaxlen
  | 17 => some .tblNcodes
  | _ => none

/-- `zext_CNTW(StatusReg(r))`: the content of a status register (R23, R25). -/
def readStatusReg (q : StatusReg) (s : State) : Nat :=
  match q with
  | .encPhase => s.enc.flags.phase.code
  | .encErr => errCode s.enc.flags.err
  | .encEinfo => s.enc.flags.einfo
  | .encNbits => s.enc.nbits
  | .encNsym => s.enc.nsym
  | .encNacc => s.enc.nacc.val
  | .encAcc => s.enc.acc.toNat
  | .decPhase => s.dec.flags.phase.code
  | .decErr => errCode s.dec.flags.err
  | .decEinfo => s.dec.flags.einfo
  | .decNbits => s.dec.nbits
  | .decPos => s.dec.pos
  | .decPlen => s.dec.plen
  | .decNout => s.dec.nout
  | .tblMaxlen => maxLen s.params.rom
  | .tblNcodes => nCodes s.params.rom

end Sys2Proof.Machine
end

