-- ==== Sys2Proof/Machine/Ops.lean ====
section
/-! DEFINITION. The shared operations: answering a command, refusing an illegal one, error entry and what ends it,
emitting, appending a code to the accumulator, taking one valid bit. -/

namespace Sys2Proof.Machine

/-- `respond(status, value)` (R7, R65): the command ends with this response. -/
def respond (st : Status) (v : Nat) (s : State) : Result := .next (s.setResp ⟨st, v⟩)

/-- An illegal command (R63, R166): no register and no stream changes, the response is `(ST_ILLEGAL_CMD, 0)`. -/
def illegalCommand (s : State) : Result := respond .illegalCmd 0 s

/-- Write the flags of one unit. -/
def State.setUnitFlags (u : UnitName) (f : UnitFlags) (s : State) : State :=
  match u with
  | .enc => s.setEnc (s.enc.setFlags f)
  | .dec => s.setDec (s.dec.setFlags f)

/-- Error entry, `raise E_X(info)` of a command of unit `u` (R167): `PHASE <- ERROR`, `ERR`, `EINFO`, and the response
`(code of E_X, EINFO)`. Nothing else of the state moves. -/
def raise (u : UnitName) (e : ErrorKind) (info : Nat) (s : State) : Result :=
  respond (.err e) info (s.setUnitFlags u (errorFlags e info))

/-- Unit ENC at the start of a session, whatever phase it was in: what ENC_START writes, and the one way out of ERROR
but reset (R116, R170). -/
def openEncoder : Encoder := { Encoder.reset with flags := openFlags }

/-- Unit DEC at the start of a session of `n` valid bits (R131, R170). -/
def openDecoder (n : Nat) : Decoder := { Decoder.reset with flags := openFlags, nbits := n }

/-- `Emit(stream, v)`: append at the end (R7, R16, R22). -/
def emit (out : List Byte) (v : Byte) : List Byte := out ++ [v]

/-- One turn of the loop of ENC_PUT (R117): shift one code bit into the accumulator and emit it when it is full. -/
def pushBit (e : Encoder) (b : Bool) : Encoder :=
  let acc := BitVec.ofNat 8 (e.acc.toNat * 2 + b.toNat)
  if e.nacc = 7 then { e with out := emit e.out acc, acc := 0, nacc := 0 }
  else { e with acc := acc, nacc := e.nacc + 1 }

/-- The loop of ENC_PUT over the bits of a code, first bit first (R117). -/
def pushBits (e : Encoder) (c : Bits) : Encoder := c.foldl pushBit e

/-- The last byte of an encode session (R118): pending bits high, zero padding low; nothing when none is pending. -/
def flushAcc (e : Encoder) : Encoder :=
  let out := if e.nacc = 0 then e.out else emit e.out (BitVec.ofNat 8 (e.acc.toNat * 2 ^ (8 - e.nacc.val)))
  { e with out := out, acc := 0, nacc := 0 }

/-- How the taking of bits ends: all taken, an E_MALFORMED reached in this state of the unit, or a match that R110
leaves unspecified. -/
inductive Taking where
  | ok (d : Decoder)
  | malformed (d : Decoder)
  | ambiguous
deriving DecidableEq, Repr

/-- `DecBit(bit)` (R133): the offending bit of an E_MALFORMED is neither stored nor counted. -/
def decBit (img : Image) (d : Decoder) (bit : Bool) : Taking :=
  if d.plen = maxLen img then .malformed d
  else
    let d1 := { d with pfx := d.pfx ++ [bit], pos := d.pos + 1 }
    match romMatch img d1.plen d1.pfx with
    | .none => .ok d1
    | .some s => .ok { d1 with out := emit d1.out s, nout := d1.nout + 1, pfx := [] }
    | .unspecified => .ambiguous

/-- The loop of DEC_PUT (R132): a bit beyond the valid region is discarded unexamined; the first bit that raises ends
the loop, the effects of the bits before it standing (R168). -/
def decBits (img : Image) (d : Decoder) : Bits → Taking
  | [] => .ok d
  | b :: bs =>
    if d.pos < d.nbits then
      match decBit img d b with
      | .ok d' => decBits img d' bs
      | .malformed d' => .malformed d'
      | .ambiguous => .ambiguous
    else decBits img d bs

end Sys2Proof.Machine
end

