-- ==== Sys2Proof/Machine/DecoderUnit.lean ====
section
/-! DEFINITION. The bit-unpacker: DEC_START, DEC_PUT, DEC_END (R131 to R134). A decode session on an image that fails
`Distinct` is refused (R110, log 8). -/

namespace Sys2Proof.Machine

/-- The premise of every rule of 43_decoder.md: without `Distinct(IMG)` the command is refused (R110). -/
def withDistinct (s : State) (r : Result) : Result :=
  if Distinct s.params.rom then r else .refused .ambiguousImage

/-- DEC_START n (R131): legal in every phase. A count that does not fit its field is no operand (log 13). -/
def execDecStart (n : Nat) (s : State) : Result :=
  if countFits s.params n then withDistinct s (respond .ok 0 (s.setDec (openDecoder n)))
  else illegalCommand s

/-- DEC_PUT p (R132): the bits of the byte, most significant first. -/
def execDecPut (p : Byte) (s : State) : Result :=
  if sessionOpen s.dec.flags.phase then
    withDistinct s
      (match decBits s.params.rom s.dec (byteBits p) with
      | .ok d => respond .ok d.nout (s.setDec d)
      | .malformed d => raise .dec .malformed (d.pos - d.plen) (s.setDec d)
      | .ambiguous => .refused .ambiguousImage)
  else illegalCommand s

/-- DEC_END (R134): E_TRUNCATED when valid bits are missing or a prefix is pending. -/
def execDecEnd (s : State) : Result :=
  if sessionOpen s.dec.flags.phase then
    withDistinct s
      (if s.dec.pos < s.dec.nbits ∨ s.dec.plen ≠ 0 then raise .dec .truncated (s.dec.pos - s.dec.plen) s
      else respond .ok s.dec.nout (s.setDec (s.dec.setFlags (doneFlags s.dec.flags))))
  else illegalCommand s

end Sys2Proof.Machine
end

