-- ==== Sys2Proof/Machine/EncoderUnit.lean ====
section
/-! DEFINITION. The bit-packer: ENC_START, ENC_PUT, ENC_END (R116 to R118). -/

namespace Sys2Proof.Machine

/-- ENC_START (R116): legal in every phase. -/
def execEncStart (s : State) : Result := respond .ok 0 (s.setEnc openEncoder)

/-- The registers ENC_PUT writes when it appends the code `c` (R117). -/
def appendCode (e : Encoder) (c : Bits) : Encoder :=
  { pushBits e c with nbits := e.nbits + c.length, nsym := e.nsym + 1 }

/-- ENC_PUT b (R117): both error checks come before any write, the absent byte first (R169). -/
def execEncPut (b : Byte) (s : State) : Result :=
  if sessionOpen s.enc.flags.phase then
    match romLookup s.params.rom b with
    | none => raise .enc .byteNotInTable (byteValue b) s
    | some c =>
      if s.enc.nbits + c.length > 2 ^ s.params.cntw - 1 then raise .enc .countOverflow (byteValue b) s
      else respond .ok (s.enc.nbits + c.length) (s.setEnc (appendCode s.enc c))
  else illegalCommand s

/-- ENC_END (R118): the padded last byte, PHASE DONE, and the count or "nothing to compress" (R173). -/
def execEncEnd (s : State) : Result :=
  if sessionOpen s.enc.flags.phase then
    let s' := s.setEnc ((flushAcc s.enc).setFlags (doneFlags s.enc.flags))
    if s.enc.nbits = 0 then respond .nothing 0 s' else respond .ok s.enc.nbits s'
  else illegalCommand s

end Sys2Proof.Machine
end

