-- ==== Sys2Proof/Machine/SystemUnit.lean ====
section
/-! DEFINITION. The system commands RDREG and RST (R150, R151). -/

namespace Sys2Proof.Machine

/-- RDREG r (R150): reads one status register, writes nothing; a reserved number is an illegal command. -/
def execRdreg (r : RegNum) (s : State) : Result :=
  match statusRegOf r with
  | some q => respond .ok (readStatusReg q s) s
  | none => illegalCommand s

/-- RST (R151): every register of both units and both streams to the reset value, the ROM unchanged. -/
def execRst (s : State) : Result := respond .ok 0 ((s.setEnc Encoder.reset).setDec Decoder.reset)

end Sys2Proof.Machine
end

