-- ==== Sys2Proof/Machine/Dispatch.lean ====
section
/-! DEFINITION. One arm per command: the meaning of each, called by name. -/

namespace Sys2Proof.Machine

def exec (i : Instr) (s : State) : Host.Outcome State Fault Refusal :=
  match i with
  | .encStart => Sys2Proof.Machine.execEncStart s
  | .encPut b => Sys2Proof.Machine.execEncPut b s
  | .encEnd => Sys2Proof.Machine.execEncEnd s
  | .decStart n => Sys2Proof.Machine.execDecStart n s
  | .decPut p => Sys2Proof.Machine.execDecPut p s
  | .decEnd => Sys2Proof.Machine.execDecEnd s
  | .rdreg r => Sys2Proof.Machine.execRdreg r s
  | .rst => Sys2Proof.Machine.execRst s

end Sys2Proof.Machine
end

