-- ==== Sys2Proof/WellFormed.lean ====
section
/-! DEFINITION. When a command has a legal word (R61, R63): its operand fits its field and names no reserved register. -/

namespace Sys2Proof

/-- The reserved status-register numbers of R25: 7, 15 and 18 to 31. -/
def reservedNumber (r : RegNum) : Bool := r == 7 || r == 15 || decide (18 ≤ r.toNat)

/-- A command has a legal word on an instance of counter width `cntw`: the count operand of DEC_START fits `CNTW` bits
(R61 format N) and the number of RDREG names a register (R63 (c)). A byte operand always fits (R64). -/
def Instr.wf (cntw : Nat) : Instr → Bool
  | .encStart => true
  | .encPut _ => true
  | .encEnd => true
  | .decStart n => decide (n < 2 ^ cntw)
  | .decPut _ => true
  | .decEnd => true
  | .rdreg r => !reservedNumber r
  | .rst => true

end Sys2Proof
end

