-- ==== Sys2Proof/Decode.lean ====
section
/-! DEFINITION. Command words (R60 to R64): the decoder, total on any number, rejecting by name; then the encoder,
written from the same encoding table (R62). -/

namespace Sys2Proof

/-- Why a number is no legal command word (R63). -/
inductive IllegalWord where
  /-- R63 (a), R152: `op` is 0x0, 0x4 or 0x9 to 0xE. -/
  | reservedOpcode
  /-- R63 (b): a must-be-zero part of `data` is not zero. -/
  | mustBeZero
  /-- R63 (c): RDREG of a reserved register number. -/
  | reservedRegister
  /-- The number does not fit `CMDW = 4 + CNTW` bits, so it is no word of the port at all (R60, log 7). -/
  | notAWord
deriving DecidableEq, Repr

/-- `CMDW`, the width of a command word (R60). -/
def cmdw (cntw : Nat) : Nat := 4 + cntw

/-- `op = word[CNTW+3 : CNTW]` (R60); at least 16 for a number that is no word of the port. -/
def opField (cntw w : Nat) : Nat := w / 2 ^ cntw

/-- `data = word[CNTW-1 : 0]` (R60). -/
def dataField (cntw w : Nat) : Nat := w % 2 ^ cntw

/-- Format Z (R61): all of `data` must be zero. -/
def formatZ (data : Nat) (i : Instr) : Except IllegalWord Instr :=
  if data = 0 then .ok i else .error .mustBeZero

/-- Format B (R61): `data[7:0]` is the byte, the bits above must be zero. -/
def formatB (data : Nat) (mk : Byte → Instr) : Except IllegalWord Instr :=
  if data < 256 then .ok (mk (BitVec.ofNat 8 data)) else .error .mustBeZero

/-- Format R (R61): `data[4:0]` is the register number, the bits above must be zero; a reserved number is illegal
(R63 (c)). -/
def formatR (data : Nat) (mk : RegNum → Instr) : Except IllegalWord Instr :=
  if data < 32 then
    if reservedNumber (BitVec.ofNat 5 data) then .error .reservedRegister else .ok (mk (BitVec.ofNat 5 data))
  else .error .mustBeZero

/-- The opcode map of R62 over the two fields of a word. Format N takes `data` whole (R61). -/
def decodeFields (op data : Nat) : Except IllegalWord Instr :=
  match op with
  | 0x1 => formatZ data .encStart
  | 0x2 => formatB data .encPut
  | 0x3 => formatZ data .encEnd
  | 0x5 => .ok (.decStart data)
  | 0x6 => formatB data .decPut
  | 0x7 => formatZ data .decEnd
  | 0x8 => formatR data .rdreg
  | 0xF => formatZ data .rst
  | _ => if op < 16 then .error .reservedOpcode else .error .notAWord

/-- The command a number on the port stands for, on an instance of counter width `cntw`. -/
def decode (cntw w : Nat) : Except IllegalWord Instr :=
  decodeFields (opField cntw w) (dataField cntw w)

/-- The opcode of a command (R62). -/
def Instr.opcode : Instr → Nat
  | .encStart => 0x1
  | .encPut _ => 0x2
  | .encEnd => 0x3
  | .decStart _ => 0x5
  | .decPut _ => 0x6
  | .decEnd => 0x7
  | .rdreg _ => 0x8
  | .rst => 0xF

/-- The `data` field of a command (R61). -/
def Instr.data : Instr → Nat
  | .encStart => 0
  | .encPut b => b.toNat
  | .encEnd => 0
  | .decStart n => n
  | .decPut p => p.toNat
  | .decEnd => 0
  | .rdreg r => r.toNat
  | .rst => 0

/-- The command word of a command: `op` above `data` (R60). -/
def encode (cntw : Nat) (i : Instr) : Nat := i.opcode * 2 ^ cntw + i.data

/-- The command the decoder reads from a row's word of spec/opcode_table.json, whose words are those of the default
`CNTW` (R62); every bit above `nbits` is zero. -/
def decodeTableWord (nbits w : Nat) : Option Instr :=
  match decode Config.cntwDefault (w % 2 ^ nbits) with
  | .ok i => some i
  | .error _ => none

end Sys2Proof
end

