-- ==== Sys2Proof/Machine/Port.lean ====
section
/-! DEFINITION. The command port (R4): taking the next word the host presents, and what a word that is no command does. -/

namespace Sys2Proof.Machine

/-- The next word on the command port and the words the host presents after it; `none` when nothing is presented. -/
def nextWord (s : State) : Option (Nat × List Nat) :=
  match s.commands with
  | [] => none
  | w :: ws => some (w, ws)

/-- What the block does with a word that decodes to no command: an illegal word is answered `(ST_ILLEGAL_CMD, 0)` and
changes nothing (R63, R152); a number that fits no word of the port is a fault of the model (log 7). -/
def rejectWord (e : IllegalWord) (s : State) : Result :=
  match e with
  | .reservedOpcode => illegalCommand s
  | .mustBeZero => illegalCommand s
  | .reservedRegister => illegalCommand s
  | .notAWord => .fault .notAWord

/-- The word `w` presented before everything else. -/
def presentWord (s : State) (w : Nat) : State := s.setCommands (w :: s.commands)

end Sys2Proof.Machine
end

