-- ==== Sys2Proof/Machine/Step.lean ====
section
/-! DEFINITION. One step: the next command word is taken from the port, decoded and executed (R4, R48). -/

namespace Sys2Proof.Machine

/-- One step. With no word presented the block waits (R190, log 4). -/
def step (s : State) : Host.Outcome State Fault Refusal :=
  match nextWord s with
  | none => .next s
  | some (w, ws) =>
    match decode s.params.cntw w with
    | .ok i => exec i (s.setCommands ws)
    | .error e => rejectWord e (s.setCommands ws)

/-- `s` with the word `w` of a row of spec/opcode_table.json presented next on the command port (log 3). -/
def State.withFetchWord (s : State) (nbits w : Nat) : State := presentWord s (w % 2 ^ nbits)

end Sys2Proof.Machine
end

