-- ==== Sys2Proof/Machine/Session.lean ====
section
/-! DEFINITION. Sessions: the pseudo-commands ENCODE and DECODE (R69), and the execution of a list of commands in the
order the host issues them (R48). -/

namespace Sys2Proof.Machine

/-- The expansion of `ENCODE B` (R69). -/
def encodeCommands (B : List Byte) : List Instr := .encStart :: (B.map .encPut ++ [.encEnd])

/-- The expansion of `DECODE P, n` (R69). -/
def decodeCommands (P : List Byte) (n : Nat) : List Instr := .decStart n :: (P.map .decPut ++ [.decEnd])

/-- Commands executed in issue order, each complete before the next (R48); a stop ends the list. -/
def execAll : List Instr → State → Result
  | [], s => .next s
  | i :: is, s =>
    match exec i s with
    | .next s' => execAll is s'
    | .fault r => .fault r
    | .refused r => .refused r

/-- Whether a command can act on unit `u`: a command of that unit, or RST, which belongs to both (R62). -/
def actsOn (u : UnitName) (i : Instr) : Bool :=
  match i with
  | .encStart => u == .enc
  | .encPut _ => u == .enc
  | .encEnd => u == .enc
  | .decStart _ => u == .dec
  | .decPut _ => u == .dec
  | .decEnd => u == .dec
  | .rdreg _ => false
  | .rst => true

end Sys2Proof.Machine
end

