-- ==== Sys2Proof/Machine/Batch.lean ====
section
/-! DEFINITION. The batch functions of the source, the normative meaning of a session: `Encode` (R115) and `Decode`
(R130). Written from those rules alone, over bit strings; they share no code with the commands but the ROM primitives. -/

namespace Sys2Proof.Machine

/-- PackedStream (R42, 00_scope.md section 8): the packed bytes and the number of valid bits. -/
structure PackedStream where
  bytes : List Byte
  nbits : Nat
deriving DecidableEq, Repr

/-- The concatenation of the codes of `B` in input order, or the first byte that is not present (R115). -/
def codeStream (img : Image) : List Byte → Except Byte Bits
  | [] => .ok []
  | b :: bs =>
    match romLookup img b with
    | none => .error b
    | some c =>
      match codeStream img bs with
      | .ok r => .ok (c ++ r)
      | .error b' => .error b'

/-- `Encode(IMG, B)` (R115): the packed stream, or ByteNotInTableError with the first absent byte. -/
def encodeBatch (img : Image) (B : List Byte) : Except Byte PackedStream :=
  match codeStream img B with
  | .ok S => .ok ⟨pack S, S.length⟩
  | .error b => .error b

/-- The status beside an encoded stream: "nothing to compress" exactly for the empty input (R115, R118, R173). -/
def PackedStream.status (ps : PackedStream) : Status := if ps.nbits = 0 then .nothing else .ok

/-- The valid bits actually supplied, `V` of R130: the first `min(n, 8 * len(P))` bits of the bytes in stream order. -/
def validBits (P : List Byte) (n : Nat) : Bits := (P.flatMap byteBits).take n

/-- The shortest prefix of `V` that matches a code, with its length: the smallest `L` of R130 at which `RomMatch` is
`some(s)`. DESIGN CHOICE (log 17): R110 leaves an ambiguous match without a value, and here it counts as no match at that
length. It occurs only on an image that fails `Distinct`, on which R130 gives `Decode` no meaning and every decode
session is refused (log 8). -/
def shortestMatch (img : Image) (V : Bits) : Option (Byte × Nat) :=
  (List.range' 1 (min V.length (maxLen img))).findSome? (fun L =>
    match romMatch img L (V.take L) with
    | .some s => some (s, L)
    | .none => none
    | .unspecified => none)

/-- The greedy scan of R130 with a bound on its turns: the symbols matched, and the bits at which no prefix matches
(empty when the scan used them all). -/
def scanFuel (img : Image) : Nat → Bits → List Byte × Bits
  | 0, V => ([], V)
  | f + 1, V =>
    match shortestMatch img V with
    | none => ([], V)
    | some (s, L) =>
      let r := scanFuel img f (V.drop L)
      (s :: r.1, r.2)

/-- The greedy scan of R130; each turn takes at least one bit, so as many turns as bits are enough. -/
def scan (img : Image) (V : Bits) : List Byte × Bits := scanFuel img V.length V

/-- `Decode(IMG, P, n)` (R130). On an image that fails `Distinct` its value is the model's own (log 17). -/
def decodeBatch (img : Image) (P : List Byte) (n : Nat) : Except ErrorKind (List Byte) :=
  let V := validBits P n
  let r := scan img V
  if r.2 = [] then (if V.length < n then .error .truncated else .ok r.1)
  else if maxLen img < r.2.length then .error .malformed
  else .error .truncated

end Sys2Proof.Machine
end

