-- ==== Sys2Proof/Machine/TableGen.lean ====
section
/-! DEFINITION. The host-side reference stages that make the ROM image (R80 to R91): FrequencyTable, HuffmanTreeBuilder,
CodeTableGenerator, `GenImage`. Not hardware: no command reaches them (R3, R80). -/

namespace Sys2Proof.Machine

/-- Every symbol, ascending. -/
def allSymbols : List Byte := (List.range Config.nsyms).map (BitVec.ofNat 8)

/-- FrequencyTable (R81): each distinct byte of `B` with its number of occurrences, in ascending order of symbol. -/
def frequencies (B : List Byte) : List (Byte × Nat) :=
  (allSymbols.filter (fun s => s ∈ B)).map (fun s => (s, B.count s))

/-- HuffmanNode (R82). -/
inductive HuffmanNode where
  | leaf (symbol : Byte) (weight : Nat)
  | internal (weight : Nat) (left right : HuffmanNode)
deriving DecidableEq, Repr

/-- The weight of a node (R82). -/
def HuffmanNode.weight : HuffmanNode → Nat
  | .leaf _ w => w
  | .internal w _ _ => w

/-- A node of the working set with its sequence number (R84). -/
structure Ranked where
  node : HuffmanNode
  seq  : Nat
deriving DecidableEq, Repr

/-- The order of the working set: by the pair `(weight, seq)` (R84). -/
def Ranked.before (a b : Ranked) : Bool :=
  decide (a.node.weight < b.node.weight) || (decide (a.node.weight = b.node.weight) && decide (a.seq < b.seq))

/-- Insert into the working set, kept in the order of R84. -/
def insertRanked (x : Ranked) : List Ranked → List Ranked
  | [] => [x]
  | y :: ys => if x.before y then x :: y :: ys else y :: insertRanked x ys

/-- The leaves, seeded in ascending order of symbol with sequence numbers from 0 (R84), as a working set. -/
def seedLeaves (freq : List (Byte × Nat)) : List Ranked :=
  (freq.zipIdx.map (fun p => (⟨.leaf p.1.1 p.1.2, p.2⟩ : Ranked))).foldr insertRanked []

/-- The merges of R83: the smallest node becomes the left child and the second smallest the right one (R84), until one
node remains. The first argument bounds the merges, the second is the next sequence number. -/
def mergeAll : Nat → Nat → List Ranked → Option HuffmanNode
  | _, _, [] => none
  | _, _, [a] => some a.node
  | 0, _, _ :: _ :: _ => none
  | f + 1, next, a :: b :: rest =>
    mergeAll f (next + 1)
      (insertRanked ⟨.internal (a.node.weight + b.node.weight) a.node b.node, next⟩ rest)

/-- HuffmanTreeBuilder (R83): the root, or EmptyInputError on an empty frequency table (R86). -/
def buildTree (freq : List (Byte × Nat)) : Except ErrorKind HuffmanNode :=
  match mergeAll freq.length freq.length (seedLeaves freq) with
  | some root => .ok root
  | none => .error .emptyInput

/-- The depth-first traversal of R87: 0 to the left child, 1 to the right child. -/
def traverse : HuffmanNode → Bits → List (Byte × Bits)
  | .leaf s _, path => [(s, path)]
  | .internal _ l r, path => traverse l (path ++ [false]) ++ traverse r (path ++ [true])

/-- CodeTableGenerator (R87), with the one-bit code "0" for a sole symbol (R85). -/
def codeTable : HuffmanNode → List (Byte × Bits)
  | .leaf s _ => [(s, [false])]
  | .internal w l r => traverse (.internal w l r) []

/-- The code table of a buffer: empty for an empty buffer, whose tree is never built (R86, R90). -/
def genTable (B : List Byte) : List (Byte × Bits) :=
  match B with
  | [] => []
  | b :: bs =>
    match buildTree (frequencies (b :: bs)) with
    | .ok root => codeTable root
    | .error _ => []

/-- `GenImage(B)` (R90). -/
def genImage (B : List Byte) : Image := imageOf (genTable B)

/-- The number of leaves of a tree (R88, R89). -/
def HuffmanNode.leaves : HuffmanNode → Nat
  | .leaf _ _ => 1
  | .internal _ l r => l.leaves + r.leaves

/-- The number of internal nodes of a tree (R88, R89). -/
def HuffmanNode.internals : HuffmanNode → Nat
  | .leaf _ _ => 0
  | .internal _ l r => l.internals + r.internals + 1

/-- Every internal node weighs the sum of its children (R82). -/
def HuffmanNode.weighed : HuffmanNode → Prop
  | .leaf _ _ => True
  | .internal w l r => w = l.weight + r.weight ∧ l.weighed ∧ r.weighed

/-- The weighted sum of R89: over the symbols of `B`, the occurrences times the code length. -/
def weightedSum (img : Image) (B : List Byte) : Nat :=
  ((frequencies B).map (fun p => p.2 * romLen img p.1)).sum

end Sys2Proof.Machine
end

