-- ==== Sys2Proof/Safety.lean ====
section
/-! DEFINITION. What holds in every reachable state (R27 and the widths of 10_state.md), in the terms the statements
use. `StateInv` is the invariant every step keeps. -/

namespace Sys2Proof.Machine

/-- The widths of ENC's registers: `EINFO`, `NBITS` and `NSYM` are `CNTW` bits wide (R14, R15). -/
structure EncoderFits (cntw : Nat) (e : Encoder) : Prop where
  einfo_lt : e.flags.einfo < 2 ^ cntw
  nbits_lt : e.nbits < 2 ^ cntw
  nsym_lt  : e.nsym < 2 ^ cntw

/-- The widths of DEC's registers: `EINFO`, `NBITS`, `POS` and `NOUT` are `CNTW` bits wide, `PFX` holds at most 255
bits (R18 to R21). -/
structure DecoderFits (cntw : Nat) (d : Decoder) : Prop where
  einfo_lt : d.flags.einfo < 2 ^ cntw
  nbits_lt : d.nbits < 2 ^ cntw
  pos_lt   : d.pos < 2 ^ cntw
  nout_lt  : d.nout < 2 ^ cntw
  pfx_le   : d.pfx.length ≤ Config.lmax

/-- What R27 says of ENC, with R12 (IDLE means no session since reset), R15 (`EINFO` is 0 outside ERROR) and R160
(which errors ENC can hold). -/
structure EncoderInv (e : Encoder) : Prop where
  /-- R27 (a), while a session is open, and of the values frozen at error entry. -/
  nacc_open   : e.flags.phase = .active ∨ e.flags.phase = .error → e.nacc.val = e.nbits % 8
  /-- R27 (a), outside a session. -/
  nacc_closed : e.flags.phase = .idle ∨ e.flags.phase = .done → e.nacc = 0
  /-- R27 (b): `ACC[7:NACC]` is zero. -/
  acc_high    : e.acc.toNat < 2 ^ e.nacc.val
  /-- R27 (c), while a session is open, and of the values frozen at error entry. -/
  out_open    : e.flags.phase = .active ∨ e.flags.phase = .error → e.out.length = e.nbits / 8
  /-- R27 (c), after ENC_END. -/
  out_done    : e.flags.phase = .done → e.out.length = (e.nbits + 7) / 8
  /-- R27 (d). -/
  nsym_le     : e.nsym ≤ e.nbits
  /-- R27 (h). -/
  err_iff     : e.flags.err = none ↔ e.flags.phase ≠ .error
  /-- R15. -/
  einfo_zero  : e.flags.phase ≠ .error → e.flags.einfo = 0
  /-- R160. -/
  err_kind    : ∀ k, e.flags.err = some k → k = .byteNotInTable ∨ k = .countOverflow
  /-- R12, R28. -/
  idle_reset  : e.flags.phase = .idle → e = Encoder.reset

/-- What R27 says of DEC on an image, with R17, R21 and R160 as for ENC, and R134 (in DONE the region is exhausted and
nothing is pending). -/
structure DecoderInv (img : Image) (d : Decoder) : Prop where
  /-- R27 (e). -/
  pos_le      : d.pos ≤ d.nbits
  /-- R27 (f). -/
  plen_le_max : d.plen ≤ maxLen img
  /-- R27 (f). -/
  plen_le_pos : d.plen ≤ d.pos
  /-- R27 (g). -/
  nout_eq     : d.nout = d.out.length
  /-- R27 (g). -/
  nout_le     : d.nout ≤ d.pos
  /-- R27 (h). -/
  err_iff     : d.flags.err = none ↔ d.flags.phase ≠ .error
  /-- R27 (i). -/
  no_match    : d.flags.phase = .active → ∀ p, p ≠ [] → p <+: d.pfx → ∀ s, Present img s → romCode img s ≠ p
  /-- R21. -/
  einfo_zero  : d.flags.phase ≠ .error → d.flags.einfo = 0
  /-- R160. -/
  err_kind    : ∀ k, d.flags.err = some k → k = .truncated ∨ k = .malformed
  /-- R134. -/
  done_exact  : d.flags.phase = .done → d.pos = d.nbits ∧ d.pfx = []
  /-- R17, R28. -/
  idle_reset  : d.flags.phase = .idle → d = Decoder.reset

/-- The ports: every word presented is a word of `CMDW` bits (R60), and the response fits its field (R65). -/
structure PortsFit (s : State) : Prop where
  commands_lt : ∀ w ∈ s.commands, w < 2 ^ cmdw s.params.cntw
  resp_lt     : ∀ r, s.resp = some r → r.value < 2 ^ s.params.cntw

/-- The invariant of the block: parameters as R5 asks, every register within its width, R27 for both units. -/
structure StateInv (s : State) : Prop where
  params_wf : s.params.wf
  enc_fits  : EncoderFits s.params.cntw s.enc
  dec_fits  : DecoderFits s.params.cntw s.dec
  enc_inv   : EncoderInv s.enc
  dec_inv   : DecoderInv s.params.rom s.dec
  ports_fit : PortsFit s

end Sys2Proof.Machine
end

