-- ==== Sys2Proof/Certificates/Slice0/Obligations.lean ====
section
/-! DEFINITION. The statements about the block, one `def Obligations.<Name> : Prop` each, from the numbered rules of
spec/. No proof stands here. -/

open Sys2Proof Sys2Proof.Machine

/-! ## Encoding -/

/-- R60 to R64: the decoder reads back every well-formed command from its word, at every operand and every counter
width the instance may have, and the word fits the port. -/
def Obligations.DecodeOfEncodeIsTheCommand : Prop :=
  ∀ (cntw : Nat) (i : Instr), Config.cntwMin ≤ cntw → i.wf cntw = true →
    decode cntw (encode cntw i) = .ok i ∧ encode cntw i < 2 ^ (4 + cntw)

/-- R60 to R64: a word the decoder accepts is the word of the well-formed command it gives, so no two words mean the
same command and none is accepted with a bit dropped. -/
def Obligations.EncodeOfDecodeIsTheWord : Prop :=
  ∀ (cntw w : Nat) (i : Instr), Config.cntwMin ≤ cntw → decode cntw w = .ok i →
    i.wf cntw = true ∧ encode cntw i = w

/-- R62: some command words written out from the table, at the default `CNTW`; the all-zero word and the all-ones word
are illegal. -/
def Obligations.CommandWordsOfTheTableDecode : Prop :=
  decode 32 0x100000000 = .ok .encStart ∧ decode 32 0x200000061 = .ok (.encPut 0x61) ∧
  decode 32 0x300000000 = .ok .encEnd ∧ decode 32 0x50000000E = .ok (.decStart 14) ∧
  decode 32 0x6000000C8 = .ok (.decPut 0xC8) ∧ decode 32 0x700000000 = .ok .decEnd ∧
  decode 32 0x80000000C = .ok (.rdreg 12) ∧ decode 32 0xF00000000 = .ok .rst ∧
  decode 32 0x000000000 = .error .reservedOpcode ∧ decode 32 0xFFFFFFFFF = .error .mustBeZero

/-- R63, R152: exactly the words of R63 (a) to (c) are illegal by encoding; a step on one changes no register and no
stream and answers `(ST_ILLEGAL_CMD, 0)`; any other word is the word of a well-formed command and is executed; if that
command is not legal in its unit's phase it has the same effect as an illegal word. That the word is taken off the list
of presented words is the model's own (log 3); that a DEC_PUT or DEC_END out of phase is answered so even on an image
that fails `Distinct` is the model's reading of R169 (log 8). -/
def Obligations.IllegalCommandsChangeNothing : Prop :=
  ∀ (s : State) (w : Nat) (ws : List Nat), Config.cntwMin ≤ s.params.cntw → w < 2 ^ (4 + s.params.cntw) →
    s.commands = w :: ws →
    let op := w / 2 ^ s.params.cntw
    let data := w % 2 ^ s.params.cntw
    let illegal := op ∈ [0x0, 0x4, 0x9, 0xA, 0xB, 0xC, 0xD, 0xE] ∨ (op ∈ [0x1, 0x3, 0x7, 0xF] ∧ data ≠ 0) ∨
      (op ∈ [0x2, 0x6] ∧ 256 ≤ data) ∨ (op = 0x8 ∧ (data = 7 ∨ data = 15 ∨ 18 ≤ data))
    (illegal → step s = .next { s with commands := ws, resp := some ⟨.illegalCmd, 0⟩ }) ∧
    (¬ illegal → ∃ i, i.wf s.params.cntw = true ∧ encode s.params.cntw i = w ∧
      step s = exec i { s with commands := ws } ∧
      (legalByPhase i s = false → step s = .next { s with commands := ws, resp := some ⟨.illegalCmd, 0⟩ }))

/-- R65: a response whose value fits `CNTW` bits is a word of `CMDW` bits with the code the table gives its status in the
top four and its value below; bit 3 of the code is 1 exactly for the statuses that are not successes. -/
def Obligations.ResponseWordCarriesBothFields : Prop :=
  ∀ (cntw : Nat) (r : Response), r.value < 2 ^ cntw →
    let code (st : Status) : Nat := match st with
      | .ok => 0x0 | .nothing => 0x1 | .err .emptyInput => 0x8 | .err .byteNotInTable => 0x9 | .err .truncated => 0xA
      | .err .malformed => 0xB | .err .countOverflow => 0xC | .illegalCmd => 0xF
    r.word cntw < 2 ^ (4 + cntw) ∧ r.word cntw / 2 ^ cntw = code r.status ∧ r.word cntw % 2 ^ cntw = r.value ∧
    r.status.code = code r.status ∧
    ((code r.status).testBit 3 = true ↔ r.status ≠ .ok ∧ r.status ≠ .nothing)

/-! ## The step -/

/-- A step runs the decoded command (R4, R48). That the word is taken from the list of words the host presents is the
model's own (log 3). -/
def Obligations.StepRunsTheDecodedCommand : Prop :=
  ∀ (s : State) (w : Nat) (ws : List Nat) (i : Instr), s.commands = w :: ws → decode s.params.cntw w = .ok i →
    step s = exec i { s with commands := ws }

/-- With no word presented the block waits (R190); that waiting leaves the whole state as it is, is the model's own
(log 4). -/
def Obligations.StepWaitsForACommand : Prop := ∀ s : State, s.commands = [] → step s = .next s

/-- R48: presenting the words of well-formed commands and running as many steps executes the commands in issue order,
each complete before the next. That the words are a list presented beforehand, and that those after them stay presented,
is the model's own (log 3). -/
def Obligations.PresentedCommandsRunInIssueOrder : Prop :=
  ∀ (is : List Instr) (s : State) (rest : List Nat), Config.cntwMin ≤ s.params.cntw →
    (∀ i ∈ is, i.wf s.params.cntw = true) →
    Host.Core.run core is.length { s with commands := is.map (encode s.params.cntw) ++ rest } =
      execAll is { s with commands := rest }

/-- On an image that satisfies `Distinct` every command completes, whatever the state (R107, R203); a command never
faults, and is refused only on an image that does not (R110). That a term without a legal word, such as DEC_START of a
count of `2^CNTW` or more, completes as an illegal command is the model's own (log 13). -/
def Obligations.EveryCommandCompletesOnADistinctImage : Prop :=
  ∀ (i : Instr) (s : State),
    (Distinct s.params.rom → ∃ t, exec i s = .next t) ∧ (∀ f, exec i s ≠ .fault f) ∧
    (∀ r, exec i s = .refused r → r = .ambiguousImage ∧ ¬ Distinct s.params.rom ∧ i.unit? = some .dec)

/-- From every state of the invariant with a distinct image the block can take a step: it neither faults nor is
refused. That a step with nothing presented answers a next state too is the model's own (log 4). -/
def Obligations.StepNeverStopsOnADistinctImage : Prop :=
  ∀ s : State, StateInv s → Distinct s.params.rom → ∃ t, step s = .next t ∧ StateInv t

/-! ## The encoder -/

/-- R116: ENC_START opens a session from every phase; every register of ENC and its stream are written, nothing else. -/
def Obligations.EncStartOpensASession : Prop :=
  ∀ s : State, exec .encStart s =
    .next { s with enc := ⟨⟨.active, none, 0⟩, 0, 0, 0, 0, []⟩, resp := some ⟨.ok, 0⟩ }

/-- R117: ENC_PUT. Out of phase it is illegal; a byte that is not present raises E_BYTE_NOT_IN_TABLE, before anything
else; a code that would take `NBITS` past `2^CNTW - 1` raises E_COUNT_OVERFLOW, before any write; otherwise, where the
accumulator is as R27 (b) says, the pending bits followed by the code are packed: their full bytes are appended to the
stream and the rest is pending. -/
def Obligations.EncPutAppendsTheCode : Prop :=
  ∀ (s : State) (b : Byte),
    (s.enc.flags.phase ≠ .active → exec (.encPut b) s = .next { s with resp := some ⟨.illegalCmd, 0⟩ }) ∧
    (s.enc.flags.phase = .active → romLookup s.params.rom b = none →
      exec (.encPut b) s = .next
        { s with enc := { s.enc with flags := ⟨.error, some .byteNotInTable, b.toNat⟩ },
                 resp := some ⟨.err .byteNotInTable, b.toNat⟩ }) ∧
    (∀ c, s.enc.flags.phase = .active → romLookup s.params.rom b = some c →
      2 ^ s.params.cntw - 1 < s.enc.nbits + c.length →
      exec (.encPut b) s = .next
        { s with enc := { s.enc with flags := ⟨.error, some .countOverflow, b.toNat⟩ },
                 resp := some ⟨.err .countOverflow, b.toNat⟩ }) ∧
    (∀ c, s.enc.flags.phase = .active → romLookup s.params.rom b = some c →
      s.enc.nbits + c.length ≤ 2 ^ s.params.cntw - 1 → s.enc.acc.toNat < 2 ^ s.enc.nacc.val →
      let all := bitsOf s.enc.nacc.val s.enc.acc.toNat ++ c
      let full := 8 * (all.length / 8)
      exec (.encPut b) s = .next
        { s with enc := { flags := s.enc.flags
                          acc := BitVec.ofNat 8 (valOf (all.drop full))
                          nacc := Fin.ofNat 8 all.length
                          nbits := s.enc.nbits + c.length
                          nsym := s.enc.nsym + 1
                          out := s.enc.out ++ pack (all.take full) },
                 resp := some ⟨.ok, s.enc.nbits + c.length⟩ })

/-- R118: ENC_END. Out of phase it is illegal; otherwise, where the accumulator is as R27 (b) says, the pending bits,
padded with zeros, are appended as the last byte if there are any, the session is DONE, the counts stay, and the answer
is the count, or "nothing to compress" for a count of zero. -/
def Obligations.EncEndFlushesAndCloses : Prop :=
  ∀ s : State,
    (s.enc.flags.phase ≠ .active → exec .encEnd s = .next { s with resp := some ⟨.illegalCmd, 0⟩ }) ∧
    (s.enc.flags.phase = .active → s.enc.acc.toNat < 2 ^ s.enc.nacc.val →
      exec .encEnd s = .next
        { s with enc := { s.enc with flags := { s.enc.flags with phase := .done }
                                     acc := 0
                                     nacc := 0
                                     out := s.enc.out ++ pack (bitsOf s.enc.nacc.val s.enc.acc.toNat) },
                 resp := some (if s.enc.nbits = 0 then ⟨.nothing, 0⟩ else ⟨.ok, s.enc.nbits⟩) })

/-! ## The decoder -/

/-- R131: DEC_START opens a session of `n` valid bits from every phase, on an image that satisfies `Distinct`. -/
def Obligations.DecStartOpensASession : Prop :=
  ∀ (s : State) (n : Nat), Distinct s.params.rom → n < 2 ^ s.params.cntw →
    exec (.decStart n) s =
      .next { s with dec := ⟨⟨.active, none, 0⟩, n, 0, [], 0, []⟩, resp := some ⟨.ok, 0⟩ }

/-- R110: on an image that fails `Distinct` no decode session is given a meaning: DEC_START in any phase, and DEC_PUT
and DEC_END of an open session, are refused. That a DEC_PUT or DEC_END out of phase is answered as illegal before the
image is looked at is the model's reading of R169 (log 8). -/
def Obligations.DecodeSessionsAreRefusedOnAnAmbiguousImage : Prop :=
  ∀ s : State, ¬ Distinct s.params.rom →
    (∀ n, n < 2 ^ s.params.cntw → exec (.decStart n) s = .refused .ambiguousImage) ∧
    (s.dec.flags.phase = .active →
      (∀ p, exec (.decPut p) s = .refused .ambiguousImage) ∧ exec .decEnd s = .refused .ambiguousImage)

/-- R132, R164: DEC_PUT. Out of phase it is illegal. In an open session the valid bits of the byte, most significant
first, are appended to the pending prefix and scanned greedily (R130). If what is left unmatched is not longer than
`MAXLEN`, its symbols are emitted and it is the new pending prefix; if it is longer, E_MALFORMED is raised at its start:
the symbols before it stand, `MAXLEN` bits of it are taken, and the offending bit is neither stored nor counted.
That a DEC_PUT out of phase is answered as illegal even on an image that fails `Distinct` is the model's reading of
R169 (log 8). -/
def Obligations.DecPutScansTheValidBits : Prop :=
  ∀ (s : State) (p : Byte),
    (s.dec.flags.phase ≠ .active → exec (.decPut p) s = .next { s with resp := some ⟨.illegalCmd, 0⟩ }) ∧
    (s.dec.flags.phase = .active → Distinct s.params.rom → DecoderInv s.params.rom s.dec →
      let taken := (byteBits p).take (s.dec.nbits - s.dec.pos)
      let V := s.dec.pfx ++ taken
      let r := scan s.params.rom V
      let start := s.dec.pos - s.dec.plen + (V.length - r.2.length)
      (r.2.length ≤ maxLen s.params.rom →
        exec (.decPut p) s = .next
          { s with dec := { s.dec with pos := s.dec.pos + taken.length
                                       pfx := r.2
                                       nout := s.dec.nout + r.1.length
                                       out := s.dec.out ++ r.1 },
                   resp := some ⟨.ok, s.dec.nout + r.1.length⟩ }) ∧
      (maxLen s.params.rom < r.2.length →
        exec (.decPut p) s = .next
          { s with dec := { flags := ⟨.error, some .malformed, start⟩
                            nbits := s.dec.nbits
                            pos := start + maxLen s.params.rom
                            pfx := r.2.take (maxLen s.params.rom)
                            nout := s.dec.nout + r.1.length
                            out := s.dec.out ++ r.1 },
                   resp := some ⟨.err .malformed, start⟩ }))

/-- R133: one valid bit. If the pending prefix already has the length of the longest code, E_MALFORMED, the bit neither
stored nor counted; otherwise the bit is taken, and a code that now matches emits its symbol and clears the prefix. -/
def Obligations.DecBitTakesOneBit : Prop :=
  ∀ (img : Image) (d : Decoder) (bit : Bool),
    (d.pfx.length = maxLen img → decBit img d bit = .malformed d) ∧
    (d.pfx.length ≠ maxLen img → (∀ s, Present img s → romCode img s ≠ d.pfx ++ [bit]) →
      decBit img d bit = .ok { d with pfx := d.pfx ++ [bit], pos := d.pos + 1 }) ∧
    (∀ s, d.pfx.length ≠ maxLen img → Distinct img → Present img s → romCode img s = d.pfx ++ [bit] →
      decBit img d bit =
        .ok { d with pfx := [], pos := d.pos + 1, nout := d.nout + 1, out := d.out ++ [s] })

/-- R45: bits beyond the valid region are never examined: two bytes that agree on the valid bits have the same effect
on an open session, and two byte sequences that agree on the first `n` bits decode alike (on an image that fails
`Distinct` what `Decode` gives is the model's own, log 17). -/
def Obligations.BitsBeyondTheValidRegionDoNotMatter : Prop :=
  (∀ (s : State) (p q : Byte),
    (byteBits p).take (s.dec.nbits - s.dec.pos) = (byteBits q).take (s.dec.nbits - s.dec.pos) →
    exec (.decPut p) s = exec (.decPut q) s) ∧
  (∀ (img : Image) (P Q : List Byte) (n : Nat),
    (P.flatMap byteBits).take n = (Q.flatMap byteBits).take n → decodeBatch img P n = decodeBatch img Q n)

/-- R134: DEC_END. Out of phase it is illegal; with valid bits missing or a prefix pending it raises E_TRUNCATED at the
start of the prefix; otherwise the session is DONE and the answer is the number of symbols. That a DEC_END out of phase
is answered as illegal even on an image that fails `Distinct` is the model's reading of R169 (log 8). -/
def Obligations.DecEndClosesOrReportsTruncation : Prop :=
  ∀ s : State,
    (s.dec.flags.phase ≠ .active → exec .decEnd s = .next { s with resp := some ⟨.illegalCmd, 0⟩ }) ∧
    (s.dec.flags.phase = .active → Distinct s.params.rom → (s.dec.pos < s.dec.nbits ∨ s.dec.pfx ≠ []) →
      exec .decEnd s = .next
        { s with dec := { s.dec with flags := ⟨.error, some .truncated, s.dec.pos - s.dec.pfx.length⟩ },
                 resp := some ⟨.err .truncated, s.dec.pos - s.dec.pfx.length⟩ }) ∧
    (s.dec.flags.phase = .active → Distinct s.params.rom → s.dec.nbits ≤ s.dec.pos → s.dec.pfx = [] →
      exec .decEnd s = .next
        { s with dec := { s.dec with flags := { s.dec.flags with phase := .done } },
                 resp := some ⟨.ok, s.dec.nout⟩ })

/-! ## System commands and reset -/

/-- R150, R25: RDREG answers the register of each of the sixteen numbers and writes nothing; a reserved number is an
illegal command. -/
def Obligations.RdregReadsEveryStatusRegister : Prop :=
  ∀ s : State,
    let reads (n : RegNum) (v : Nat) : Prop := exec (.rdreg n) s = .next { s with resp := some ⟨.ok, v⟩ }
    let phase (p : Phase) : Nat := match p with | .idle => 0 | .active => 1 | .done => 2 | .error => 3
    let err (e : Option ErrorKind) : Nat := match e with
      | none => 0 | some .emptyInput => 0x8 | some .byteNotInTable => 0x9 | some .truncated => 0xA
      | some .malformed => 0xB | some .countOverflow => 0xC
    reads 0 (phase s.enc.flags.phase) ∧ reads 1 (err s.enc.flags.err) ∧ reads 2 s.enc.flags.einfo ∧
    reads 3 s.enc.nbits ∧ reads 4 s.enc.nsym ∧ reads 5 s.enc.nacc.val ∧ reads 6 s.enc.acc.toNat ∧
    reads 8 (phase s.dec.flags.phase) ∧ reads 9 (err s.dec.flags.err) ∧ reads 10 s.dec.flags.einfo ∧
    reads 11 s.dec.nbits ∧ reads 12 s.dec.pos ∧ reads 13 s.dec.pfx.length ∧ reads 14 s.dec.nout ∧
    reads 16 (maxLen s.params.rom) ∧ reads 17 (nCodes s.params.rom) ∧
    (∀ r : RegNum, r = 7 ∨ r = 15 ∨ 18 ≤ r.toNat →
      exec (.rdreg r) s = .next { s with resp := some ⟨.illegalCmd, 0⟩ })

/-- R151, R190, R191: RST has the effect of power-on reset on every register and both streams; the ROM stays. That the
words the host is going to present stay too is the model's own (log 3). -/
def Obligations.RstRestoresTheResetState : Prop :=
  ∀ s : State, exec .rst s =
    .next { s with enc := ⟨⟨.idle, none, 0⟩, 0, 0, 0, 0, []⟩, dec := ⟨⟨.idle, none, 0⟩, 0, 0, [], 0, []⟩,
                   resp := some ⟨.ok, 0⟩ } ∧
    (State.resetWith s.params).enc = ⟨⟨.idle, none, 0⟩, 0, 0, 0, 0, []⟩ ∧
    (State.resetWith s.params).dec = ⟨⟨.idle, none, 0⟩, 0, 0, [], 0, []⟩ ∧
    (State.resetWith s.params).params = s.params

/-! ## The ROM -/

/-- R101: bit `i` of a code is bit `LEN - 1 - i` of the entry's `BITS`; the bits above are ignored. That an absent symbol
(`LEN = 0`), whose code R101 leaves undefined, has the empty code is the model's own (log 18). -/
def Obligations.CodeBitsAreRightJustified : Prop :=
  ∀ (img : Image) (s : Byte), (romCode img s).length = (romEntry img s).len.toNat ∧
    ∀ i, i < (romEntry img s).len.toNat →
      (romCode img s)[i]? = some ((romEntry img s).bits.getLsbD ((romEntry img s).len.toNat - 1 - i))

/-- R104: `RomMatch(L, p)` answers a symbol exactly when that symbol alone has a code of length `L` equal to `p`,
nothing when none has, and is unspecified when two have. -/
def Obligations.RomMatchComparesEveryEntryOfTheLength : Prop :=
  ∀ (img : Image) (L : Nat) (p : Bits), 1 ≤ L → p.length = L →
    let M (s : Byte) : Prop := (romEntry img s).len.toNat = L ∧ romCode img s = p
    (romMatch img L p = .none ↔ ∀ s, ¬ M s) ∧
    (∀ s, romMatch img L p = .some s ↔ (M s ∧ ∀ t, M t → t = s)) ∧
    (romMatch img L p = .unspecified ↔ ∃ s t, s ≠ t ∧ M s ∧ M t)

/-- R105, R106: `MAXLEN` is the largest of the 256 code lengths and `NCODES` the number of symbols whose length is not
zero. -/
def Obligations.MaxlenAndNcodesOfTheImage : Prop :=
  ∀ img : Image,
    (∀ s, (romEntry img s).len.toNat ≤ maxLen img) ∧ (∃ s, (romEntry img s).len.toNat = maxLen img) ∧
    nCodes img = ((List.range 256).filter (fun k => (romEntry img (BitVec.ofNat 8 k)).len.toNat ≠ 0)).length

/-- R107: a prefix-free image is distinct and satisfies Kraft's inequality. -/
def Obligations.PrefixFreeImagesAreDistinctAndMeetKraft : Prop :=
  ∀ img : Image, PrefixFree img → Distinct img ∧ Kraft img

/-- R109: on an image without symbols ENC_START then ENC_END gives ST_NOTHING, any ENC_PUT of a session raises
E_BYTE_NOT_IN_TABLE, DEC_START 0 then DEC_END gives ST_OK with no symbols, and the first valid bit raises E_MALFORMED. -/
def Obligations.TheEmptyImageEncodesAndDecodesNothing : Prop :=
  ∀ s : State, (∀ b, ¬ Present s.params.rom b) →
    (∃ t, execAll [.encStart, .encEnd] s = .next t ∧ t.resp = some ⟨.nothing, 0⟩ ∧ t.enc.out = []) ∧
    (∀ b, ∃ t, execAll [.encStart, .encPut b] s = .next t ∧ t.resp = some ⟨.err .byteNotInTable, b.toNat⟩) ∧
    (∃ t, execAll [.decStart 0, .decEnd] s = .next t ∧ t.resp = some ⟨.ok, 0⟩ ∧ t.dec.out = []) ∧
    (∀ n p, 0 < n → n < 2 ^ s.params.cntw →
      ∃ t, execAll [.decStart n, .decPut p] s = .next t ∧ t.resp = some ⟨.err .malformed, 0⟩)

/-! ## Phases, errors, frames -/

/-- R166: legality by phase. A PUT or END command of a unit not in phase ACTIVE changes no register and no stream and
answers `(ST_ILLEGAL_CMD, 0)`; every other well-formed command that completes answers something else. That
a DEC_PUT or DEC_END out of phase is answered so even on an image that fails `Distinct` is the model's reading of R169
(log 8). -/
def Obligations.LegalityDependsOnThePhaseAlone : Prop :=
  ∀ (i : Instr) (s : State), i.wf s.params.cntw = true →
    let outOfPhase := (((∃ b, i = .encPut b) ∨ i = .encEnd) ∧ s.enc.flags.phase ≠ .active) ∨
      (((∃ p, i = .decPut p) ∨ i = .decEnd) ∧ s.dec.flags.phase ≠ .active)
    (outOfPhase → exec i s = .next { s with resp := some ⟨.illegalCmd, 0⟩ }) ∧
    (¬ outOfPhase → ∀ t v, exec i s = .next t → t.resp ≠ some ⟨.illegalCmd, v⟩)

/-- R65, R161: every command that completes drives one response, whose status is one of the codes 0, 1, 9 to 0xC and
0xF: the reserved codes and E_EMPTY_INPUT are never returned; the value of an illegal command's response is 0. -/
def Obligations.EveryCommandReturnsAnAllowedStatus : Prop :=
  ∀ (i : Instr) (s t : State), exec i s = .next t →
    ∃ r, t.resp = some r ∧ r.status.code ∈ [0x0, 0x1, 0x9, 0xA, 0xB, 0xC, 0xF] ∧
      (r.status = .illegalCmd → r.value = 0)

/-- R173: ST_NOTHING is answered only by ENC_END of a session that took no byte, and leaves ENC DONE with `NBITS = 0`
and an empty stream. -/
def Obligations.NothingToCompressOnlyForAnEmptySession : Prop :=
  ∀ (i : Instr) (s t : State) (v : Nat), StateInv s → exec i s = .next t → t.resp = some ⟨.nothing, v⟩ →
    i = .encEnd ∧ v = 0 ∧ s.enc.nsym = 0 ∧ t.enc.flags.phase = .done ∧ t.enc.nbits = 0 ∧ t.enc.out = []

/-- R167: error entry. When a command answers an error, it belongs to one unit, that unit is in phase ERROR with `ERR`
and `EINFO` as answered, the other unit is untouched, ENC's other registers and stream are frozen, DEC's count is, and
what DEC had emitted stands; and every later PUT or END of that unit is illegal. -/
def Obligations.ErrorEntryFreezesTheUnit : Prop :=
  ∀ (i : Instr) (s t : State) (e : ErrorKind) (v : Nat), exec i s = .next t → t.resp = some ⟨.err e, v⟩ →
    (i.unit? = some .enc ∧ t = { s with enc := { s.enc with flags := ⟨.error, some e, v⟩ }, resp := t.resp } ∧
      (e = .byteNotInTable ∨ e = .countOverflow) ∧
      ∀ j, ((∃ b, j = .encPut b) ∨ j = .encEnd) → exec j t = .next { t with resp := some ⟨.illegalCmd, 0⟩ }) ∨
    (i.unit? = some .dec ∧ t = { s with dec := t.dec, resp := t.resp } ∧
      t.dec.flags = ⟨.error, some e, v⟩ ∧ t.dec.nbits = s.dec.nbits ∧ s.dec.out <+: t.dec.out ∧
      (e = .truncated ∨ e = .malformed) ∧ (e = .truncated → t.dec = { s.dec with flags := t.dec.flags }) ∧
      ∀ j, ((∃ p, j = .decPut p) ∨ j = .decEnd) → exec j t = .next { t with resp := some ⟨.illegalCmd, 0⟩ })

/-- R170: a unit in phase ERROR keeps every register and its stream until its START command or reset, and a PUT or END
of it raises no second error. That a DEC_PUT or DEC_END is answered as illegal there even on an image that fails
`Distinct` is the model's reading of R169 (log 8). -/
def Obligations.ErrorPhaseIsLeftOnlyByStartOrReset : Prop :=
  ∀ (i : Instr) (s t : State), exec i s = .next t →
    (s.enc.flags.phase = .error →
      (t.enc = s.enc ∧ (i.unit? = some .enc → t.resp = some ⟨.illegalCmd, 0⟩)) ∨
      (i = .encStart ∧ t.enc = ⟨⟨.active, none, 0⟩, 0, 0, 0, 0, []⟩) ∨
      (i = .rst ∧ t.enc = ⟨⟨.idle, none, 0⟩, 0, 0, 0, 0, []⟩)) ∧
    (s.dec.flags.phase = .error →
      (t.dec = s.dec ∧ (i.unit? = some .dec → t.resp = some ⟨.illegalCmd, 0⟩)) ∨
      (∃ n, i = .decStart n ∧ t.dec = ⟨⟨.active, none, 0⟩, n, 0, [], 0, []⟩) ∨
      (i = .rst ∧ t.dec = ⟨⟨.idle, none, 0⟩, 0, 0, [], 0, []⟩))

/-- R26: a unit's phase changes only so: to ACTIVE by its START command, from ACTIVE to DONE by its END command, from
ACTIVE to ERROR by a PUT or END that raises, to IDLE by reset. -/
def Obligations.PhasesChangeOnlyByTheirOwnCommands : Prop :=
  ∀ (i : Instr) (s t : State), exec i s = .next t →
    (t.enc.flags = s.enc.flags ∨ (i = .encStart ∧ t.enc.flags.phase = .active) ∨
      (i = .encEnd ∧ s.enc.flags.phase = .active ∧ t.enc.flags.phase = .done) ∨
      ((∃ b, i = .encPut b) ∧ s.enc.flags.phase = .active ∧ t.enc.flags.phase = .error) ∨
      (i = .rst ∧ t.enc.flags.phase = .idle)) ∧
    (t.dec.flags = s.dec.flags ∨ ((∃ n, i = .decStart n) ∧ t.dec.flags.phase = .active) ∨
      (i = .decEnd ∧ s.dec.flags.phase = .active ∧ t.dec.flags.phase = .done) ∨
      (((∃ p, i = .decPut p) ∨ i = .decEnd) ∧ s.dec.flags.phase = .active ∧ t.dec.flags.phase = .error) ∨
      (i = .rst ∧ t.dec.flags.phase = .idle))

/-- R51, R108, R191: no command, reset included, changes the image or the counter width. That a command also leaves the
words still to be presented as they are is the model's own (log 3). -/
def Obligations.NoCommandWritesTheRom : Prop :=
  ∀ (i : Instr) (s t : State), exec i s = .next t → t.params = s.params ∧ t.commands = s.commands

/-- R46: ENC_PUT emits at most 32 bytes and ENC_END at most one; DEC_PUT emits at most 8 symbols; each appends to its
own stream. -/
def Obligations.CommandsEmitWithinTheirBounds : Prop :=
  ∀ s t : State,
    (∀ b, exec (.encPut b) s = .next t → ∃ bs, t.enc.out = s.enc.out ++ bs ∧ bs.length ≤ 32) ∧
    (exec .encEnd s = .next t → ∃ bs, t.enc.out = s.enc.out ++ bs ∧ bs.length ≤ 1) ∧
    (∀ p, exec (.decPut p) s = .next t → ∃ ss, t.dec.out = s.dec.out ++ ss ∧ ss.length ≤ 8)

/-- R16, R22: the output streams are append-only: every command keeps what they hold as a prefix, but for the unit's
START command and RST, which empty them. -/
def Obligations.StreamsGrowUntilStartOrReset : Prop :=
  ∀ (i : Instr) (s t : State), exec i s = .next t →
    (s.enc.out <+: t.enc.out ∨ ((i = .encStart ∨ i = .rst) ∧ t.enc.out = [])) ∧
    (s.dec.out <+: t.dec.out ∨ (((∃ n, i = .decStart n) ∨ i = .rst) ∧ t.dec.out = []))

/-- R24, R18: `DEC.POS` walks upward: no command but DEC_START and RST lowers it, one DEC_PUT raises it by at most 8,
and it never passes `DEC.NBITS`. -/
def Obligations.DecoderPositionWalksUpward : Prop :=
  ∀ (i : Instr) (s t : State), exec i s = .next t → (∀ n, i ≠ .decStart n) → i ≠ .rst →
    t.dec.nbits = s.dec.nbits ∧ s.dec.pos ≤ t.dec.pos ∧ t.dec.pos ≤ s.dec.pos + 8 ∧
    (s.dec.pos ≤ s.dec.nbits → t.dec.pos ≤ t.dec.nbits)

/-! ## The invariant -/

/-- R27, with the widths of 10_state.md: every step keeps the invariant, from every state that has it. That a step
with nothing presented leaves the state as it is, is the model's own (log 4), as are the clauses of the invariant on the
list that holds the image (log 11) and on the words still to be presented (log 3, log 7). -/
def Obligations.EveryStepKeepsTheInvariant : Prop :=
  ∀ s t : State, StateInv s → step s = .next t → StateInv t

/-- R28: every register of both units is zero after reset and both streams are empty, on every instance, and the
invariant holds. That nothing is presented and nothing answered yet is the model's own (log 3, log 5), as is the
instance that `State.reset` stands for (log 2) and the form of the list that holds the image (log 11). -/
def Obligations.ResetHoldsZeroEverywhere : Prop :=
  (∀ p : Params, p.wf → StateInv (State.resetWith p)) ∧
  (∀ p : Params, State.resetWith p =
    ⟨p, ⟨⟨.idle, none, 0⟩, 0, 0, 0, 0, []⟩, ⟨⟨.idle, none, 0⟩, 0, 0, [], 0, []⟩, [], none⟩) ∧
  (∃ p : Params, p.wf ∧ State.reset = State.resetWith p)

/-! ## Independence of the units -/

/-- R49: a command of one unit neither reads nor writes anything of the other: on two states that agree on the
parameters and on its unit it has the same effect on the unit and gives the same response, and each keeps its other
unit. -/
def Obligations.CommandsOfOneUnitIgnoreTheOther : Prop :=
  ∀ (i : Instr) (s s' t : State), s.params = s'.params → exec i s = .next t →
    (i.unit? = some .enc → s.enc = s'.enc →
      t.dec = s.dec ∧ ∃ t', exec i s' = .next t' ∧ t'.enc = t.enc ∧ t'.resp = t.resp ∧ t'.dec = s'.dec) ∧
    (i.unit? = some .dec → s.dec = s'.dec →
      t.enc = s.enc ∧ ∃ t', exec i s' = .next t' ∧ t'.dec = t.dec ∧ t'.resp = t.resp ∧ t'.enc = s'.enc)

/-- R49: sessions of the two units may be interleaved command by command, with RDREG and RST among them: after every
command of a unit, the unit's state and the response are those it would have had with only the commands that act on it. -/
def Obligations.InterleavedSessionsRunAsIfAlone : Prop :=
  ∀ (u : UnitName) (is : List Instr) (i : Instr) (s t : State), i.unit? = some u →
    execAll (is ++ [i]) s = .next t →
    ∃ t', execAll ((is ++ [i]).filter (actsOn u)) s = .next t' ∧ t'.resp = t.resp ∧
      (u = .enc → t'.enc = t.enc) ∧ (u = .dec → t'.dec = t.dec)

/-- R192: a session depends on the image and its own commands only: from any two states of one instance, a START and
the same commands of its unit after it end in the same state of the unit with the same response. -/
def Obligations.SessionsForgetWhatCameBefore : Prop :=
  ∀ (is : List Instr) (s s' t : State), s.params = s'.params →
    ((∀ i ∈ is, i.unit? = some .enc) → execAll (.encStart :: is) s = .next t →
      ∃ t', execAll (.encStart :: is) s' = .next t' ∧ t'.enc = t.enc ∧ t'.resp = t.resp) ∧
    (∀ n, n < 2 ^ s.params.cntw → (∀ i ∈ is, i.unit? = some .dec) → execAll (.decStart n :: is) s = .next t →
      ∃ t', execAll (.decStart n :: is) s' = .next t' ∧ t'.dec = t.dec ∧ t'.resp = t.resp)

/-! ## Packing -/

/-- R42, R44: the packed bytes of a bit stream are `ceil(n / 8)`; bit `i` lies in byte `i / 8` at position `7 - i mod 8`,
the positions beyond the stream in the last byte are zero, and reading the bytes back in stream order gives the
stream; the decoder's bit `i` of any byte sequence is bit `7 - i mod 8` of byte `i / 8`. -/
def Obligations.PackingIsMostSignificantBitFirst : Prop :=
  ∀ S : Bits, (pack S).length = (S.length + 7) / 8 ∧
    (∀ k, k < (pack S).length → ∀ j, j < 8 →
      ((pack S).getD k 0).getLsbD (7 - j) = S.getD (8 * k + j) false) ∧
    validBits (pack S) S.length = S ∧
    ∀ (P : List Byte) (n i : Nat), i < n → i < 8 * P.length →
      (validBits P n)[i]? = some ((P.getD (i / 8) 0).getLsbD (7 - i % 8))

/-! ## Whole sessions -/

/-- R119: after ENC_START and the ENC_PUTs of `B`, in a session that has not overflowed, the registers and the stream
of ENC hold the closed form of the concatenated codes; after ENC_END the stream is their packing. -/
def Obligations.EncodeSessionClosedForm : Prop :=
  ∀ (s : State) (B : List Byte) (S : Bits), codeStream s.params.rom B = .ok S → S.length ≤ 2 ^ s.params.cntw - 1 →
    let full := 8 * (S.length / 8)
    ∃ t u, execAll (.encStart :: B.map .encPut) s = .next t ∧
      t.enc = ⟨⟨.active, none, 0⟩, BitVec.ofNat 8 (valOf (S.drop full)), Fin.ofNat 8 S.length, S.length, B.length,
        pack (S.take full)⟩ ∧
      exec .encEnd t = .next u ∧ u.enc.out = pack S

/-- R120: the command sequence ENCODE B, from any state. If the batch function encodes `B` and the count fits, the
session ends DONE with its result, and the last response is `(ST_OK, n)`, or `(ST_NOTHING, 0)` for the empty input. If
the batch function reports the byte `b`, then `b` is the first absent byte of `B`: the bytes `B1` before it have codes,
`S` together. If `S` fits the count, the session is ACTIVE up to the ENC_PUT of that `b`, enters ERROR there with
E_BYTE_NOT_IN_TABLE and `b`, and ends so, the later commands changing nothing of ENC and answered as illegal. DEC stays
as it was. -/
def Obligations.EncodeSessionAgreesWithEncode : Prop :=
  ∀ (s : State) (B : List Byte),
    (∀ ps, encodeBatch s.params.rom B = .ok ps → ps.nbits ≤ 2 ^ s.params.cntw - 1 →
      ∃ t, execAll (encodeCommands B) s = .next t ∧ t.enc.flags.phase = .done ∧ t.enc.out = ps.bytes ∧
        t.enc.nbits = ps.nbits ∧ t.enc.nsym = B.length ∧ t.dec = s.dec ∧
        t.resp = some (if B = [] then ⟨.nothing, 0⟩ else ⟨.ok, ps.nbits⟩)) ∧
    (∀ b, encodeBatch s.params.rom B = .error b →
      ∃ B1 B2 S, B = B1 ++ b :: B2 ∧ codeStream s.params.rom B1 = .ok S ∧ ¬ Present s.params.rom b ∧
        (S.length ≤ 2 ^ s.params.cntw - 1 →
          ∃ t1 t2 t, execAll (.encStart :: B1.map .encPut) s = .next t1 ∧ t1.enc.flags.phase = .active ∧
            exec (.encPut b) t1 = .next t2 ∧ t2.resp = some ⟨.err .byteNotInTable, b.toNat⟩ ∧
            execAll (encodeCommands B) s = .next t ∧ t.enc = t2.enc ∧
            t.enc.flags = ⟨.error, some .byteNotInTable, b.toNat⟩ ∧ t.resp = some ⟨.illegalCmd, 0⟩ ∧
            t.dec = s.dec))

/-- R136: the command sequence DECODE P, n, from any state, on an image that satisfies `Distinct`. It ends as the batch
function does: DONE with its symbols and `(ST_OK, len)`; or ERROR with E_MALFORMED, entered at the DEC_PUT of the
offending bit, the later commands changing nothing; or ERROR with E_TRUNCATED, entered at DEC_END. ENC stays as it was. -/
def Obligations.DecodeSessionAgreesWithDecode : Prop :=
  ∀ (s : State) (P : List Byte) (n : Nat), Distinct s.params.rom → n < 2 ^ s.params.cntw →
    ∃ t, execAll (decodeCommands P n) s = .next t ∧ t.enc = s.enc ∧
      (∀ B, decodeBatch s.params.rom P n = .ok B →
        t.dec.flags.phase = .done ∧ t.dec.out = B ∧ t.resp = some ⟨.ok, B.length⟩) ∧
      (decodeBatch s.params.rom P n = .error .malformed →
        ∃ P1 p P2 t1 t2, P = P1 ++ p :: P2 ∧ execAll (.decStart n :: P1.map .decPut) s = .next t1 ∧
          t1.dec.flags.phase = .active ∧ exec (.decPut p) t1 = .next t2 ∧
          t2.dec.flags.phase = .error ∧ t2.dec.flags.err = some .malformed ∧ t.dec = t2.dec) ∧
      (decodeBatch s.params.rom P n = .error .truncated →
        ∃ t1, execAll (.decStart n :: P.map .decPut) s = .next t1 ∧ t1.dec.flags.phase = .active ∧
          t.dec.flags.phase = .error ∧ t.dec.flags.err = some .truncated) ∧
      (∀ e, decodeBatch s.params.rom P n = .error e → e = .malformed ∨ e = .truncated)

/-- R130, R110: the match the scan takes is the shortest: the smallest length from 1 to `MAXLEN` (and no longer than the
bits there are) at which `RomMatch` of the leading bits is one symbol, prefix-free or not. On an image that fails
`Distinct`, where R110 gives an ambiguous match no value, the clause is the model's own: such a match counts as none at
its length (log 17). -/
def Obligations.ShortestMatchIsTheSmallestLength : Prop :=
  ∀ (img : Image) (V : Bits),
    (∀ s L, shortestMatch img V = some (s, L) ↔
      1 ≤ L ∧ L ≤ min V.length (maxLen img) ∧ romMatch img L (V.take L) = .some s ∧
        ∀ L' s', 1 ≤ L' → L' < L → romMatch img L' (V.take L') ≠ .some s') ∧
    (shortestMatch img V = none ↔
      ∀ L s, 1 ≤ L → L ≤ min V.length (maxLen img) → romMatch img L (V.take L) ≠ .some s)

/-- R130, R137: on a prefix-free image the greedy scan of a concatenation of codes, with something after it that begins
with no code, gives back exactly the symbols and leaves exactly the rest. -/
def Obligations.GreedyScanRecoversTheSymbols : Prop :=
  ∀ (img : Image) (B : List Byte) (S r : Bits), PrefixFree img → codeStream img B = .ok S →
    (∀ s, Present img s → ¬ romCode img s <+: r) → scan img (S ++ r) = (B, r)

/-- R137: on every prefix-free image that covers `B`, decoding what `Encode` gives returns `B`. -/
def Obligations.DecodeOfEncodeIsTheInput : Prop :=
  ∀ (img : Image) (B : List Byte), PrefixFree img → Covers img B →
    ∃ ps, encodeBatch img B = .ok ps ∧ decodeBatch img ps.bytes ps.nbits = .ok B

/-- R137, R193, R196: the whole flow on the block. On an instance whose image is `GenImage(B)`, from any state, if the
bit count fits `CNTW`: the session ENCODE B ends DONE, and the session DECODE of the bytes in `ENC.OUT` with the count
in `ENC.NBITS`, run after it, ends DONE with `DEC.OUT = B`. -/
def Obligations.RoundTripThroughTheBlock : Prop :=
  ∀ (s : State) (B : List Byte) (S : Bits), s.params.rom = genImage B → codeStream s.params.rom B = .ok S →
    S.length ≤ 2 ^ s.params.cntw - 1 →
    ∃ t u, execAll (encodeCommands B) s = .next t ∧ t.enc.flags.phase = .done ∧
      execAll (decodeCommands t.enc.out t.enc.nbits) t = .next u ∧ u.dec.flags.phase = .done ∧
      u.dec.out = B ∧ u.dec.nout = B.length ∧ u.enc = t.enc

/-- R138: with a full prefix-free table no command ever answers E_MALFORMED, from any state of the invariant. -/
def Obligations.FullTablesNeverMalformed : Prop :=
  ∀ (i : Instr) (s t : State) (v : Nat), StateInv s → PrefixFree s.params.rom → KraftFull s.params.rom →
    exec i s = .next t → t.resp ≠ some ⟨.err .malformed, v⟩

/-! ## Table generation on the host -/

/-- R82, R83, R86, R88, R89: the tree of a non-empty buffer has one leaf per distinct symbol, one internal node fewer,
every internal node weighs the sum of its children, and the root weighs the number of bytes; the tree of an empty
frequency table is refused with EmptyInputError. -/
def Obligations.HuffmanTreeHasALeafPerSymbol : Prop :=
  (∀ B : List Byte, B ≠ [] → ∃ root, buildTree (frequencies B) = .ok root ∧ root.leaves = B.dedup.length ∧
    root.internals + 1 = root.leaves ∧ root.weighed ∧ root.weight = B.length) ∧
  buildTree (frequencies []) = .error .emptyInput

/-- R88, R90: the generated image of a buffer is `Canonical` (R107), prefix-free and within Kraft's bound, full for two
or more distinct symbols, and gives a code to exactly the bytes of the buffer; `NCODES` is their number. The first
clause, that the list which holds the image is in its one form (`Image.wf`), is the model's own representation (log 11). -/
def Obligations.GeneratedImagesArePrefixFreeAndCover : Prop :=
  ∀ B : List Byte, Image.wf (genImage B) ∧ Canonical (genImage B) ∧ PrefixFree (genImage B) ∧ Kraft (genImage B) ∧
    (∀ b, Present (genImage B) b ↔ b ∈ B) ∧ nCodes (genImage B) = B.dedup.length ∧
    (2 ≤ B.dedup.length → KraftFull (genImage B))
end

