-- ==== Sys2Proof/Laws/Bits.lean ====
section
/-! SUPPORT. Bit strings: the length of a numeral, its value, both directions between them, and packing. -/

namespace Sys2Proof.Machine

@[simp] theorem bitsOf_length (L v : Nat) : (bitsOf L v).length = L := by
  induction L with
  | zero => rfl
  | succ L ih => simp [bitsOf, ih]

@[simp] theorem byteBits_length (b : Byte) : (byteBits b).length = 8 := bitsOf_length 8 _

theorem foldl_val (s : Bits) (a : Nat) :
    s.foldl (fun a b => 2 * a + b.toNat) a = a * 2 ^ s.length + valOf s := by
  induction s generalizing a with
  | nil => simp [valOf]
  | cons b s ih =>
    simp only [List.foldl_cons, List.length_cons, valOf]
    rw [ih, ih (2 * 0 + b.toNat)]
    ring

@[simp] theorem valOf_nil : valOf [] = 0 := rfl

theorem valOf_cons (b : Bool) (s : Bits) : valOf (b :: s) = b.toNat * 2 ^ s.length + valOf s := by
  have := foldl_val s (2 * 0 + b.toNat)
  simpa [valOf] using this

theorem valOf_append (s t : Bits) : valOf (s ++ t) = valOf s * 2 ^ t.length + valOf t := by
  rw [valOf, List.foldl_append]
  exact foldl_val t _

theorem valOf_lt (s : Bits) : valOf s < 2 ^ s.length := by
  induction s with
  | nil => decide
  | cons b s ih =>
    rw [valOf_cons, List.length_cons, pow_succ]
    cases b <;> simp only [Bool.toNat_true, Bool.toNat_false] <;> omega

theorem valOf_bitsOf (L v : Nat) : valOf (bitsOf L v) = v % 2 ^ L := by
  induction L with
  | zero => simp [bitsOf, Nat.mod_one]
  | succ L ih =>
    rw [bitsOf, valOf_cons, ih, bitsOf_length, Nat.mod_pow_succ, Nat.testBit_eq_decide_div_mod_eq]
    rcases Nat.mod_two_eq_zero_or_one (v / 2 ^ L) with h | h <;> simp [h]
    all_goals omega

theorem bitsOf_mod (L v : Nat) : bitsOf L (v % 2 ^ L) = bitsOf L v := by
  suffices h : ∀ K, K ≤ L → bitsOf K (v % 2 ^ L) = bitsOf K v from h L le_rfl
  intro K
  induction K with
  | zero => intro _; rfl
  | succ K ih =>
    intro hK
    simp [bitsOf, ih (by omega), Nat.testBit_mod_two_pow, show K < L by omega]

theorem bitsOf_valOf (s : Bits) : bitsOf s.length (valOf s) = s := by
  induction s with
  | nil => rfl
  | cons b s ih =>
    have hlt := valOf_lt s
    have hbit : (valOf (b :: s)).testBit s.length = b := by
      rw [valOf_cons, Nat.testBit_eq_decide_div_mod_eq, Nat.add_comm, Nat.add_mul_div_right _ _ (by positivity),
        Nat.div_eq_of_lt hlt]
      cases b <;> simp
    have hlow : bitsOf s.length (valOf (b :: s)) = s := by
      rw [← bitsOf_mod, valOf_cons, Nat.add_comm, Nat.add_mul_mod_self_right, Nat.mod_eq_of_lt hlt, ih]
    rw [List.length_cons, bitsOf, hbit, hlow]

/-- Bit `i` of a numeral (R6, R101). -/
theorem bitsOf_getElem? (L v i : Nat) (h : i < L) : (bitsOf L v)[i]? = some (v.testBit (L - 1 - i)) := by
  induction L generalizing i with
  | zero => omega
  | succ L ih =>
    cases i with
    | zero => simp [bitsOf]
    | succ i =>
      rw [bitsOf, List.getElem?_cons_succ, ih i (by omega), show L + 1 - 1 - (i + 1) = L - 1 - i by omega]

/-! ## Packing (R42, R44) -/

/-- A packed byte that lies inside the first part. -/
theorem packByte_append_left (S T : Bits) (k : Nat) (h : 8 * k + 8 ≤ S.length) :
    packByte (S ++ T) k = packByte S k := by
  unfold packByte
  congr 2
  apply List.map_congr_left
  intro j hj
  rw [List.mem_range] at hj
  rw [List.getD_append _ _ _ _ (by omega)]

/-- A packed byte that lies beyond a first part of whole bytes. -/
theorem packByte_append_right (S T : Bits) (m k : Nat) (h : S.length = 8 * m) :
    packByte (S ++ T) (m + k) = packByte T k := by
  unfold packByte
  congr 2
  apply List.map_congr_left
  intro j hj
  rw [List.getD_append_right _ _ _ _ (by omega), show 8 * (m + k) + j - S.length = 8 * k + j by omega]

/-- Packing splits at a byte boundary. -/
theorem pack_append (S T : Bits) (h : 8 ∣ S.length) : pack (S ++ T) = pack S ++ pack T := by
  obtain ⟨m, hm⟩ := h
  unfold pack
  rw [List.length_append, show (S.length + T.length + 7) / 8 = m + (T.length + 7) / 8 by omega,
    show (S.length + 7) / 8 = m by omega, List.range_add, List.map_append, List.map_map]
  congr 1
  · apply List.map_congr_left
    intro k hk
    rw [List.mem_range] at hk
    exact packByte_append_left S T k (by omega)
  · apply List.map_congr_left
    intro k _
    exact packByte_append_right S T m k hm

@[simp] theorem pack_nil : pack [] = [] := rfl

/-- A byte of a string of at most eight bits: the bits high, zeros low (R44). -/
theorem packByte_zero (s : Bits) (h : s.length ≤ 8) :
    packByte s 0 = BitVec.ofNat 8 (valOf s * 2 ^ (8 - s.length)) := by
  unfold packByte
  congr 1
  rcases s with _ | ⟨a, _ | ⟨b, _ | ⟨c, _ | ⟨d, _ | ⟨e, _ | ⟨f, _ | ⟨g, _ | ⟨i, _ | ⟨_, s⟩⟩⟩⟩⟩⟩⟩⟩⟩
  all_goals first
    | (simp only [List.length_cons] at h; omega)
    | (simp [List.range_succ, valOf]; try ring)

/-- A string of one to eight bits packs into one byte. -/
theorem pack_short (s : Bits) (h : s.length ≤ 8) (h0 : s ≠ []) :
    pack s = [BitVec.ofNat 8 (valOf s * 2 ^ (8 - s.length))] := by
  have : (s.length + 7) / 8 = 1 := by
    have := List.length_pos_iff.2 h0
    omega
  simp [pack, this, List.range_succ, packByte_zero s h]

theorem drop_past (x c : Bits) (n m : Nat) (h : x.length = n) : (x ++ c).drop (n + m) = c.drop m := by
  subst h; simp [List.drop_append]

theorem take_past (x c : Bits) (n m : Nat) (h : x.length = n) : (x ++ c).take (n + m) = x ++ c.take m := by
  subst h; simp [List.take_append]

end Sys2Proof.Machine
end

