-- ==== Sys2Proof/Laws/Rom.lean ====
section
/-! SUPPORT. The ROM: which symbols are present, what a match says, and that the predicates the model evaluates are the
rules' own wording. -/

namespace Sys2Proof.Machine

theorem romLen_eq_zero_of_not_listed (img : Image) (s : Byte) (h : s ∉ img.map Prod.fst) : romLen img s = 0 := by
  have : img.lookup s = none := by
    rw [List.lookup_eq_none_iff]
    rintro ⟨k, e⟩ hp
    simp only [bne_iff_ne]
    rintro rfl
    exact h (List.mem_map_of_mem (f := Prod.fst) hp)
  simp [romLen, romEntry, this, RomEntry.absent]

@[simp] theorem mem_presentSyms (img : Image) (s : Byte) : s ∈ presentSyms img ↔ Present img s := by
  rw [presentSyms, List.mem_filter, List.mem_dedup]
  constructor
  · rintro ⟨-, h⟩
    simpa using h
  · intro h
    refine ⟨?_, by simpa using h⟩
    by_contra hn
    exact h (romLen_eq_zero_of_not_listed img s hn)

theorem presentSyms_nodup (img : Image) : (presentSyms img).Nodup := (List.nodup_dedup _).filter _

@[simp] theorem romCode_length (img : Image) (s : Byte) : (romCode img s).length = romLen img s := bitsOf_length _ _

/-- R102: a present symbol's code has at least one bit. -/
theorem romCode_ne_nil {img : Image} {s : Byte} (h : Present img s) : romCode img s ≠ [] := by
  intro h0
  apply h
  rw [← romCode_length, h0, List.length_nil]

theorem romLen_le (img : Image) (s : Byte) : romLen img s ≤ Config.lmax := by
  have := (romEntry img s).len.isLt
  simp only [romLen, Config.lmax]
  omega

/-- `Distinct` in the words of R107: no two present symbols have the same code. -/
theorem distinct_iff (img : Image) :
    Distinct img ↔ ∀ s t, Present img s → Present img t → romCode img s = romCode img t → s = t := by
  rw [Distinct, List.nodup_map_iff_inj_on (presentSyms_nodup img)]
  simp only [mem_presentSyms]
  constructor
  · intro h s t hs ht; exact h s hs t ht
  · intro h s hs t ht; exact h s t hs ht

/-- `PrefixFree` over the present symbols alone, a form that `decide` can evaluate. -/
theorem prefixFree_iff (img : Image) :
    PrefixFree img ↔ ∀ s ∈ presentSyms img, ∀ t ∈ presentSyms img, s ≠ t → ¬ romCode img s <+: romCode img t := by
  simp only [PrefixFree, mem_presentSyms]
  constructor
  · intro h s hs t ht; exact h s t hs ht
  · intro h s t hs ht; exact h s hs t ht

/-- That no non-empty prefix of `pfx` is a code (R27 (i)), in a form that `decide` can evaluate. -/
theorem no_match_iff (img : Image) (pfx : Bits) :
    (∀ p, p ≠ [] → p <+: pfx → ∀ s, Present img s → romCode img s ≠ p) ↔
      ∀ p ∈ pfx.inits, p ≠ [] → ∀ s ∈ presentSyms img, romCode img s ≠ p := by
  simp only [List.mem_inits, mem_presentSyms]
  constructor
  · intro h p hp h0; exact h p h0 hp
  · intro h p h0 hp; exact h p hp h0

theorem romLookup_eq_some {img : Image} {b : Byte} {c : Bits} (h : romLookup img b = some c) :
    Present img b ∧ c = romCode img b := by
  unfold romLookup at h
  split at h
  · exact ⟨‹_›, (Option.some.inj h).symm⟩
  · cases h

@[simp] theorem romLookup_eq_none (img : Image) (b : Byte) : romLookup img b = none ↔ ¬ Present img b := by
  simp [romLookup]

theorem romLookup_length {img : Image} {b : Byte} {c : Bits} (h : romLookup img b = some c) :
    1 ≤ c.length ∧ c.length ≤ Config.lmax := by
  obtain ⟨hp, rfl⟩ := romLookup_eq_some h
  rw [romCode_length]
  exact ⟨Nat.pos_of_ne_zero hp, romLen_le _ _⟩

theorem mem_romCandidates (img : Image) (L : Nat) (p : Bits) (s : Byte) :
    s ∈ romCandidates img L p ↔ Present img s ∧ romLen img s = L ∧ romCode img s = p := by
  simp [romCandidates]

/-- On a distinct image a match is never unspecified: the branch of R110 is not reached there. -/
theorem romMatch_ne_unspecified {img : Image} (hd : Distinct img) (L : Nat) (p : Bits) :
    romMatch img L p ≠ .unspecified := by
  have hn : (romCandidates img L p).Nodup := (presentSyms_nodup img).filter _
  have hu : ∀ s ∈ romCandidates img L p, ∀ t ∈ romCandidates img L p, s = t := by
    intro s hs t ht
    rw [mem_romCandidates] at hs ht
    exact (distinct_iff img).1 hd s t hs.1 ht.1 (hs.2.2.trans ht.2.2.symm)
  unfold romMatch
  split <;> first | exact MatchResult.noConfusion | skip
  rename_i s t r h
  exfalso
  rw [h] at hn hu
  have hst : s = t := hu s (by simp) t (by simp)
  simp [hst] at hn

theorem foldl_max_le (l : List Nat) (a : Nat) : a ≤ l.foldl max a ∧ ∀ x ∈ l, x ≤ l.foldl max a := by
  induction l generalizing a with
  | nil => simp
  | cons y l ih =>
    obtain ⟨h1, h2⟩ := ih (max a y)
    refine ⟨le_trans (le_max_left a y) h1, ?_⟩
    intro x hx
    rcases List.mem_cons.1 hx with rfl | hx
    · exact le_trans (le_max_right a x) h1
    · exact h2 x hx

/-- R105: no code is longer than `MAXLEN`. -/
theorem romLen_le_maxLen (img : Image) (s : Byte) : romLen img s ≤ maxLen img := by
  by_cases h : Present img s
  · exact (foldl_max_le _ 0).2 _ (List.mem_map_of_mem ((mem_presentSyms img s).2 h))
  · have : romLen img s = 0 := by simpa using h
    omega

theorem foldl_max_bound (l : List Nat) (a c : Nat) (ha : a ≤ c) (h : ∀ x ∈ l, x ≤ c) : l.foldl max a ≤ c := by
  induction l generalizing a with
  | nil => simpa
  | cons y l ih =>
    exact ih (max a y) (max_le ha (h y (by simp))) (fun x hx => h x (by simp [hx]))

/-- `MAXLEN` is at most `LMAX` (R100). -/
theorem maxLen_le (img : Image) : maxLen img ≤ Config.lmax := by
  apply foldl_max_bound _ _ _ (Nat.zero_le _)
  intro x hx
  obtain ⟨s, -, rfl⟩ := List.mem_map.1 hx
  exact romLen_le img s

/-- The image made from a table is in its canonical form. -/
theorem imageOf_wf (t : List (Byte × Bits)) (h : ∀ p ∈ t, p.2.length ≤ Config.lmax) : Image.wf (imageOf t) := by
  have hfst : ∀ k : Nat, k < Config.nsyms → (BitVec.ofNat 8 k).toNat = k := by
    intro k hk
    simp only [Config.nsyms] at hk
    simp [Nat.mod_eq_of_lt hk]
  constructor
  · rw [imageOf, List.pairwise_filterMap]
    refine (List.pairwise_lt_range (n := Config.nsyms)).imp_of_mem ?_
    intro a b ha hb hab x hx y hy
    rw [List.mem_range] at ha hb
    have key : ∀ k (z : Byte × RomEntry), (match t.lookup (BitVec.ofNat 8 k) with
        | none => none
        | some c => if c = [] then none else
          some ((BitVec.ofNat 8 k : Byte), (⟨BitVec.ofNat 8 c.length, BitVec.ofNat 255 (valOf c)⟩ : RomEntry))) =
            some z → z.1 = BitVec.ofNat 8 k := by
      intro k z hz
      split at hz
      · cases hz
      · split at hz
        · cases hz
        · exact (congrArg Prod.fst (Option.some.inj hz)).symm
    rw [key a x hx, key b y hy, hfst a ha, hfst b hb]
    exact hab
  · intro c hc
    rw [imageOf, List.mem_filterMap] at hc
    obtain ⟨k, -, hk⟩ := hc
    split at hk
    · cases hk
    · rename_i code hcode
      split at hk
      · cases hk
      · rename_i hne
        have hmem : (BitVec.ofNat 8 k, code) ∈ t := by
          clear hk hne
          induction t with
          | nil => cases hcode
          | cons p t ih =>
            rw [List.lookup_cons] at hcode
            split at hcode
            · rename_i heq
              have heq' : BitVec.ofNat 8 k = p.1 := by simpa using heq
              rw [heq', ← Option.some.inj hcode]
              simp
            · exact List.mem_cons_of_mem _ (ih (fun q hq => h q (by simp [hq])) hcode)
        have hl := h _ hmem
        simp only [Config.lmax] at hl
        rw [← Option.some.inj hk]
        intro habs
        have h0 := congrArg (fun e => (RomEntry.len e).toNat) habs
        simp only [RomEntry.absent, BitVec.toNat_ofNat] at h0
        rw [Nat.mod_eq_of_lt (by omega)] at h0
        exact hne (List.length_eq_zero_iff.1 (by simpa using h0))

end Sys2Proof.Machine
end

