-- ==== Sys2Proof/Laws/State.lean ====
section
/-! SUPPORT. One lemma per field for each named update of the state and of its two units, so that no proof unfolds a
record update. -/

namespace Sys2Proof.Machine

@[simp] theorem State.setEnc_params (s : State) (e : Encoder) : (s.setEnc e).params = s.params := rfl
@[simp] theorem State.setEnc_enc (s : State) (e : Encoder) : (s.setEnc e).enc = e := rfl
@[simp] theorem State.setEnc_dec (s : State) (e : Encoder) : (s.setEnc e).dec = s.dec := rfl
@[simp] theorem State.setEnc_commands (s : State) (e : Encoder) : (s.setEnc e).commands = s.commands := rfl
@[simp] theorem State.setEnc_resp (s : State) (e : Encoder) : (s.setEnc e).resp = s.resp := rfl

@[simp] theorem State.setDec_params (s : State) (d : Decoder) : (s.setDec d).params = s.params := rfl
@[simp] theorem State.setDec_enc (s : State) (d : Decoder) : (s.setDec d).enc = s.enc := rfl
@[simp] theorem State.setDec_dec (s : State) (d : Decoder) : (s.setDec d).dec = d := rfl
@[simp] theorem State.setDec_commands (s : State) (d : Decoder) : (s.setDec d).commands = s.commands := rfl
@[simp] theorem State.setDec_resp (s : State) (d : Decoder) : (s.setDec d).resp = s.resp := rfl

@[simp] theorem State.setResp_params (s : State) (r : Response) : (s.setResp r).params = s.params := rfl
@[simp] theorem State.setResp_enc (s : State) (r : Response) : (s.setResp r).enc = s.enc := rfl
@[simp] theorem State.setResp_dec (s : State) (r : Response) : (s.setResp r).dec = s.dec := rfl
@[simp] theorem State.setResp_commands (s : State) (r : Response) : (s.setResp r).commands = s.commands := rfl
@[simp] theorem State.setResp_resp (s : State) (r : Response) : (s.setResp r).resp = some r := rfl

@[simp] theorem State.setCommands_params (s : State) (ws : List Nat) : (s.setCommands ws).params = s.params := rfl
@[simp] theorem State.setCommands_enc (s : State) (ws : List Nat) : (s.setCommands ws).enc = s.enc := rfl
@[simp] theorem State.setCommands_dec (s : State) (ws : List Nat) : (s.setCommands ws).dec = s.dec := rfl
@[simp] theorem State.setCommands_commands (s : State) (ws : List Nat) : (s.setCommands ws).commands = ws := rfl
@[simp] theorem State.setCommands_resp (s : State) (ws : List Nat) : (s.setCommands ws).resp = s.resp := rfl

@[simp] theorem Encoder.setFlags_flags (e : Encoder) (f : UnitFlags) : (e.setFlags f).flags = f := rfl
@[simp] theorem Encoder.setFlags_acc (e : Encoder) (f : UnitFlags) : (e.setFlags f).acc = e.acc := rfl
@[simp] theorem Encoder.setFlags_nacc (e : Encoder) (f : UnitFlags) : (e.setFlags f).nacc = e.nacc := rfl
@[simp] theorem Encoder.setFlags_nbits (e : Encoder) (f : UnitFlags) : (e.setFlags f).nbits = e.nbits := rfl
@[simp] theorem Encoder.setFlags_nsym (e : Encoder) (f : UnitFlags) : (e.setFlags f).nsym = e.nsym := rfl
@[simp] theorem Encoder.setFlags_out (e : Encoder) (f : UnitFlags) : (e.setFlags f).out = e.out := rfl

@[simp] theorem Decoder.setFlags_flags (d : Decoder) (f : UnitFlags) : (d.setFlags f).flags = f := rfl
@[simp] theorem Decoder.setFlags_nbits (d : Decoder) (f : UnitFlags) : (d.setFlags f).nbits = d.nbits := rfl
@[simp] theorem Decoder.setFlags_pos (d : Decoder) (f : UnitFlags) : (d.setFlags f).pos = d.pos := rfl
@[simp] theorem Decoder.setFlags_pfx (d : Decoder) (f : UnitFlags) : (d.setFlags f).pfx = d.pfx := rfl
@[simp] theorem Decoder.setFlags_nout (d : Decoder) (f : UnitFlags) : (d.setFlags f).nout = d.nout := rfl
@[simp] theorem Decoder.setFlags_out (d : Decoder) (f : UnitFlags) : (d.setFlags f).out = d.out := rfl
@[simp] theorem Decoder.setFlags_plen (d : Decoder) (f : UnitFlags) : (d.setFlags f).plen = d.plen := rfl

@[simp] theorem State.setUnitFlags_enc_enc (s : State) (f : UnitFlags) :
    (State.setUnitFlags .enc f s).enc = s.enc.setFlags f := rfl
@[simp] theorem State.setUnitFlags_enc_dec (s : State) (f : UnitFlags) :
    (State.setUnitFlags .enc f s).dec = s.dec := rfl
@[simp] theorem State.setUnitFlags_dec_enc (s : State) (f : UnitFlags) :
    (State.setUnitFlags .dec f s).enc = s.enc := rfl
@[simp] theorem State.setUnitFlags_dec_dec (s : State) (f : UnitFlags) :
    (State.setUnitFlags .dec f s).dec = s.dec.setFlags f := rfl
@[simp] theorem State.setUnitFlags_params (u : UnitName) (f : UnitFlags) (s : State) :
    (State.setUnitFlags u f s).params = s.params := by cases u <;> rfl
@[simp] theorem State.setUnitFlags_commands (u : UnitName) (f : UnitFlags) (s : State) :
    (State.setUnitFlags u f s).commands = s.commands := by cases u <;> rfl
@[simp] theorem State.setUnitFlags_resp (u : UnitName) (f : UnitFlags) (s : State) :
    (State.setUnitFlags u f s).resp = s.resp := by cases u <;> rfl

@[simp] theorem openFlags_phase : openFlags.phase = .active := rfl
@[simp] theorem openFlags_err : openFlags.err = none := rfl
@[simp] theorem openFlags_einfo : openFlags.einfo = 0 := rfl
@[simp] theorem doneFlags_phase (f : UnitFlags) : (doneFlags f).phase = .done := rfl
@[simp] theorem doneFlags_err (f : UnitFlags) : (doneFlags f).err = f.err := rfl
@[simp] theorem doneFlags_einfo (f : UnitFlags) : (doneFlags f).einfo = f.einfo := rfl
@[simp] theorem errorFlags_phase (e : ErrorKind) (n : Nat) : (errorFlags e n).phase = .error := rfl
@[simp] theorem errorFlags_err (e : ErrorKind) (n : Nat) : (errorFlags e n).err = some e := rfl
@[simp] theorem errorFlags_einfo (e : ErrorKind) (n : Nat) : (errorFlags e n).einfo = n := rfl

@[simp] theorem sessionOpen_eq_true (p : Phase) : sessionOpen p = true ↔ p = .active := by cases p <;> decide
@[simp] theorem sessionOpen_eq_false (p : Phase) : sessionOpen p = false ↔ p ≠ .active := by cases p <;> decide

end Sys2Proof.Machine
end

