-- ==== Sys2Proof/Laws/Ops.lean ====
section
/-! SUPPORT. One lemma per shared operation and per command: everything it can do. Provers cite these instead of unfolding
a meaning. -/

namespace Sys2Proof.Machine

/-! ## Answers -/

@[simp] theorem respond_eq_next (st : Status) (v : Nat) (s t : State) :
    respond st v s = .next t ↔ t = s.setResp ⟨st, v⟩ := by
  simp [respond, eq_comm]

@[simp] theorem illegalCommand_eq_next (s t : State) :
    illegalCommand s = .next t ↔ t = s.setResp ⟨.illegalCmd, 0⟩ := by
  simp [illegalCommand]

/-- Error entry writes the unit's flags and the response, nothing else (R167). -/
@[simp] theorem raise_eq_next (u : UnitName) (e : ErrorKind) (n : Nat) (s t : State) :
    raise u e n s = .next t ↔ t = (s.setUnitFlags u (errorFlags e n)).setResp ⟨.err e, n⟩ := by
  simp [raise]

@[simp] theorem withDistinct_eq_next (s t : State) (r : Result) :
    withDistinct s r = .next t ↔ Distinct s.params.rom ∧ r = .next t := by
  unfold withDistinct
  split <;> simp [*]

/-! ## The accumulator -/

/-- One bit shifted into an accumulator that holds its pending bits only (R13): the bit is appended to the pending
bits, which are emitted as one byte when they are eight. -/
theorem pushBit_spec (e : Encoder) (b : Bool) (h : e.acc.toNat < 2 ^ e.nacc.val) :
    let all := bitsOf e.nacc.val e.acc.toNat ++ [b]
    (e.nacc = 7 → pushBit e b = { e with out := e.out ++ [BitVec.ofNat 8 (valOf all)], acc := 0, nacc := 0 }) ∧
    (e.nacc ≠ 7 → pushBit e b = { e with acc := BitVec.ofNat 8 (valOf all), nacc := e.nacc + 1 } ∧
      (e.nacc + 1).val = e.nacc.val + 1) := by
  have hv : valOf (bitsOf e.nacc.val e.acc.toNat ++ [b]) = e.acc.toNat * 2 + b.toNat := by
    rw [valOf_append, valOf_bitsOf, Nat.mod_eq_of_lt h]
    simp [valOf_cons]
  simp only [hv]
  constructor
  · intro h7
    simp [pushBit, h7, emit]
  · intro h7
    refine ⟨by simp [pushBit, h7], ?_⟩
    have h1 := e.nacc.isLt
    have h2 : e.nacc.val ≠ 7 := fun h => h7 (Fin.ext h)
    rw [Fin.val_add]
    have : (1 : Fin 8).val = 1 := rfl
    omega

/-- What `pushBit` never touches. -/
theorem pushBit_frame (e : Encoder) (b : Bool) :
    (pushBit e b).flags = e.flags ∧ (pushBit e b).nbits = e.nbits ∧ (pushBit e b).nsym = e.nsym ∧
      ∃ bs, (pushBit e b).out = e.out ++ bs ∧ bs.length ≤ 1 := by
  unfold pushBit
  split
  · exact ⟨rfl, rfl, rfl, _, rfl, le_rfl⟩
  · exact ⟨rfl, rfl, rfl, [], by simp, by simp⟩

/-- `R27` (b) is kept by one bit. -/
theorem pushBit_acc_high (e : Encoder) (b : Bool) (h : e.acc.toNat < 2 ^ e.nacc.val) :
    (pushBit e b).acc.toNat < 2 ^ (pushBit e b).nacc.val := by
  obtain ⟨h1, h2⟩ := pushBit_spec e b h
  by_cases h7 : e.nacc = 7
  · rw [h1 h7]; simp
  · obtain ⟨he, hn⟩ := h2 h7
    rw [he]
    simp only [hn]
    have hlt := valOf_lt (bitsOf e.nacc.val e.acc.toNat ++ [b])
    simp only [List.length_append, bitsOf_length, List.length_singleton] at hlt
    rw [BitVec.toNat_ofNat]
    exact lt_of_le_of_lt (Nat.mod_le _ _) hlt

theorem pushBits_acc_high (e : Encoder) (c : Bits) (h : e.acc.toNat < 2 ^ e.nacc.val) :
    (pushBits e c).acc.toNat < 2 ^ (pushBits e c).nacc.val := by
  induction c generalizing e with
  | nil => exact h
  | cons b c ih => exact ih (pushBit e b) (pushBit_acc_high e b h)

theorem pushBits_flags (e : Encoder) (c : Bits) : (pushBits e c).flags = e.flags := by
  induction c generalizing e with
  | nil => rfl
  | cons b c ih => exact (ih (pushBit e b)).trans (pushBit_frame e b).1

/-- `NACC` counts modulo 8 and a byte is emitted at every wrap (R13, R46). -/
theorem pushBits_count (e : Encoder) (c : Bits) :
    (pushBits e c).nacc.val = (e.nacc.val + c.length) % 8 ∧
      ∃ bs, (pushBits e c).out = e.out ++ bs ∧ bs.length = (e.nacc.val + c.length) / 8 := by
  induction c generalizing e with
  | nil =>
    have := e.nacc.isLt
    refine ⟨?_, [], by simp [pushBits], ?_⟩
    · show e.nacc.val = _
      simp only [List.length_nil]
      omega
    · simp only [List.length_nil]
      omega
  | cons b c ih =>
    obtain ⟨h1, bs, h2, h3⟩ := ih (pushBit e b)
    have hstep : pushBits e (b :: c) = pushBits (pushBit e b) c := rfl
    have hlt := e.nacc.isLt
    rw [hstep, h1, h2, List.length_cons]
    by_cases h7 : e.nacc = 7
    · have hv : e.nacc.val = 7 := by rw [h7]; rfl
      have hn : (pushBit e b).nacc.val = 0 := by simp [pushBit, h7]
      have ho : (pushBit e b).out = e.out ++ [BitVec.ofNat 8 (e.acc.toNat * 2 + b.toNat)] := by
        simp [pushBit, h7, emit]
      rw [hn] at h3 ⊢
      refine ⟨by omega, _, by rw [ho, List.append_assoc], ?_⟩
      rw [List.length_append, List.length_singleton, h3]
      omega
    · have hv : e.nacc.val ≠ 7 := fun h => h7 (Fin.ext h)
      have hn : (pushBit e b).nacc.val = e.nacc.val + 1 := by
        have : (1 : Fin 8).val = 1 := rfl
        simp only [pushBit, h7, if_false, Fin.val_add]
        omega
      have ho : (pushBit e b).out = e.out := by simp [pushBit, h7]
      rw [hn] at h3 ⊢
      exact ⟨by omega, bs, by rw [ho], by rw [h3]; omega⟩

/-- The whole of the loop of ENC_PUT: the pending bits and the code are packed, full bytes out, the rest pending. -/
theorem pushBits_closed (e : Encoder) (c : Bits) (h : e.acc.toNat < 2 ^ e.nacc.val) :
    let all := bitsOf e.nacc.val e.acc.toNat ++ c
    let full := 8 * (all.length / 8)
    pushBits e c = { e with acc := BitVec.ofNat 8 (valOf (all.drop full)), nacc := Fin.ofNat 8 all.length,
                            out := e.out ++ pack (all.take full) } := by
  induction c generalizing e with
  | nil =>
    have hn := e.nacc.isLt
    have h1 : (e.nacc.val + 0) / 8 = 0 := by omega
    simp only [List.append_nil, bitsOf_length, pushBits, List.foldl_nil]
    rw [show e.nacc.val / 8 = 0 by omega]
    simp only [Nat.mul_zero, List.drop_zero, List.take_zero, pack_nil, List.append_nil]
    rw [valOf_bitsOf, Nat.mod_eq_of_lt h]
    simp
  | cons b c ih =>
    have hn := e.nacc.isLt
    have hstep : pushBits e (b :: c) = pushBits (pushBit e b) c := rfl
    have ih' := ih (pushBit e b) (pushBit_acc_high e b h)
    obtain ⟨h1, h2⟩ := pushBit_spec e b h
    rw [hstep]
    intro all full
    have hall : all = (bitsOf e.nacc.val e.acc.toNat ++ [b]) ++ c := by simp [all]
    by_cases h7 : e.nacc = 7
    · rw [h1 h7] at ih' ⊢
      rw [ih']
      have hl : (bitsOf e.nacc.val e.acc.toNat ++ [b]).length = 8 := by simp [h7]
      have e1 : all.length = 8 + c.length := by rw [hall, List.length_append, hl]
      have hz : bitsOf (0 : Fin 8).val (0 : BitVec 8).toNat = [] := rfl
      simp only [hz, List.nil_append]
      have e2 : full = 8 + 8 * (c.length / 8) := by simp only [full, e1]; omega
      have hd : all.drop full = c.drop (8 * (c.length / 8)) := by
        rw [hall, e2]; exact drop_past _ _ _ _ hl
      have ht : all.take full = (bitsOf e.nacc.val e.acc.toNat ++ [b]) ++ c.take (8 * (c.length / 8)) := by
        rw [hall, e2]; exact take_past _ _ _ _ hl
      have hp : pack (bitsOf e.nacc.val e.acc.toNat ++ [b]) =
          [BitVec.ofNat 8 (valOf (bitsOf e.nacc.val e.acc.toNat ++ [b]))] := by
        rw [pack_short _ (by rw [hl]) (by simp), hl]
        simp
      rw [hd, ht, pack_append _ _ (by rw [hl]), hp, List.append_assoc, e1]
      congr 1
      ext
      simp
    · obtain ⟨h3, h4⟩ := h2 h7
      rw [h3] at ih' ⊢
      rw [ih']
      have hlt := valOf_lt (bitsOf e.nacc.val e.acc.toNat ++ [b])
      have hl : (bitsOf e.nacc.val e.acc.toNat ++ [b]).length = e.nacc.val + 1 := by simp
      have h256 : valOf (bitsOf e.nacc.val e.acc.toNat ++ [b]) < 256 := by
        refine lt_of_lt_of_le hlt ?_
        rw [hl]
        calc 2 ^ (e.nacc.val + 1) ≤ 2 ^ 8 := Nat.pow_le_pow_right (by norm_num) (by omega)
          _ = 256 := rfl
      have e0 : bitsOf (e.nacc + 1).val (BitVec.ofNat 8 (valOf (bitsOf e.nacc.val e.acc.toNat ++ [b]))).toNat =
          bitsOf e.nacc.val e.acc.toNat ++ [b] := by
        rw [h4, BitVec.toNat_ofNat, Nat.mod_eq_of_lt h256, ← hl, bitsOf_valOf]
      simp only [e0, ← hall]
      rfl

/-! ## Taking valid bits -/

/-- Everything one valid bit can do (R133). -/
theorem decBit_cases (img : Image) (d : Decoder) (bit : Bool) :
    (d.plen = maxLen img ∧ decBit img d bit = .malformed d) ∨
    (d.plen ≠ maxLen img ∧ romMatch img (d.plen + 1) (d.pfx ++ [bit]) = .none ∧
      decBit img d bit = .ok { d with pfx := d.pfx ++ [bit], pos := d.pos + 1 }) ∨
    (∃ s, d.plen ≠ maxLen img ∧ romMatch img (d.plen + 1) (d.pfx ++ [bit]) = .some s ∧
      decBit img d bit =
        .ok { d with pfx := [], pos := d.pos + 1, nout := d.nout + 1, out := d.out ++ [s] }) ∨
    (d.plen ≠ maxLen img ∧ romMatch img (d.plen + 1) (d.pfx ++ [bit]) = .unspecified ∧
      decBit img d bit = .ambiguous) := by
  by_cases h : d.plen = maxLen img
  · exact .inl ⟨h, by simp [decBit, h]⟩
  · right
    have hl : Decoder.plen { d with pfx := d.pfx ++ [bit], pos := d.pos + 1 } = d.plen + 1 := by
      simp [Decoder.plen]
    rcases hm : romMatch img (d.plen + 1) (d.pfx ++ [bit]) with _ | s | _
    · exact .inl ⟨h, rfl, by simp only [decBit, h, if_false, hl, hm]⟩
    · exact .inr (.inl ⟨s, h, rfl, by simp only [decBit, h, if_false, hl, hm, emit]⟩)
    · exact .inr (.inr ⟨h, rfl, by simp only [decBit, h, if_false, hl, hm]⟩)

/-- On a distinct image no bit is ambiguous (R110). -/
theorem decBits_ne_ambiguous {img : Image} (hd : Distinct img) (d : Decoder) (bs : Bits) :
    decBits img d bs ≠ .ambiguous := by
  induction bs generalizing d with
  | nil => simp [decBits]
  | cons b bs ih =>
    rw [decBits]
    split
    · rcases decBit_cases img d b with ⟨-, h⟩ | ⟨-, -, h⟩ | ⟨s, -, -, h⟩ | ⟨-, hm, -⟩
      · simp [h]
      · rw [h]; exact ih _
      · rw [h]; exact ih _
      · exact absurd hm (romMatch_ne_unspecified hd _ _)
    · exact ih d

/-- The unit that a taking ends in, if it is not ambiguous. -/
def Taking.unit? : Taking → Option Decoder
  | .ok d => some d
  | .malformed d => some d
  | .ambiguous => none

/-- Whatever property of the unit one valid bit keeps, the bits of a byte keep: the induction over the loop of DEC_PUT,
once. -/
theorem decBits_keeps (img : Image) (P : Decoder → Prop)
    (hbit : ∀ d d' b, P d → d.pos < d.nbits → (decBit img d b).unit? = some d' → P d') (d d' : Decoder) (bs : Bits)
    (h : P d) (ht : (decBits img d bs).unit? = some d') : P d' := by
  induction bs generalizing d with
  | nil =>
    rw [decBits, Taking.unit?] at ht
    exact Option.some.inj ht ▸ h
  | cons b bs ih =>
    rw [decBits] at ht
    split at ht
    · rename_i hpos
      have hb := hbit d
      revert ht
      rcases hdb : decBit img d b with d1 | d1 | _
      · intro ht
        exact ih d1 (hb d1 b h hpos (by rw [hdb]; rfl)) ht
      · intro ht
        exact Option.some.inj ht ▸ hb d1 b h hpos (by rw [hdb]; rfl)
      · intro ht
        cases ht
    · exact ih d h ht

/-! ## The commands: everything each can do when it answers a next state -/

theorem execEncStart_next (s t : State) :
    exec .encStart s = .next t ↔ t = (s.setEnc openEncoder).setResp ⟨.ok, 0⟩ := by
  simp [exec, execEncStart]

theorem execEncPut_next {b : Byte} {s t : State} (h : exec (.encPut b) s = .next t) :
    (s.enc.flags.phase ≠ .active ∧ t = s.setResp ⟨.illegalCmd, 0⟩) ∨
    (s.enc.flags.phase = .active ∧ romLookup s.params.rom b = none ∧
      t = (s.setUnitFlags .enc (errorFlags .byteNotInTable b.toNat)).setResp ⟨.err .byteNotInTable, b.toNat⟩) ∨
    (∃ c, s.enc.flags.phase = .active ∧ romLookup s.params.rom b = some c ∧
      2 ^ s.params.cntw - 1 < s.enc.nbits + c.length ∧
      t = (s.setUnitFlags .enc (errorFlags .countOverflow b.toNat)).setResp ⟨.err .countOverflow, b.toNat⟩) ∨
    (∃ c, s.enc.flags.phase = .active ∧ romLookup s.params.rom b = some c ∧
      s.enc.nbits + c.length ≤ 2 ^ s.params.cntw - 1 ∧
      t = (s.setEnc (appendCode s.enc c)).setResp ⟨.ok, s.enc.nbits + c.length⟩) := by
  change execEncPut b s = .next t at h
  unfold execEncPut at h
  split at h
  · rename_i hp
    have hp' := (sessionOpen_eq_true _).1 hp
    rcases hl : romLookup s.params.rom b with _ | c
    · simp only [hl, raise_eq_next, byteValue] at h
      exact .inr (.inl ⟨hp', rfl, h⟩)
    · simp only [hl] at h
      split at h
      · rw [raise_eq_next] at h
        exact .inr (.inr (.inl ⟨c, hp', rfl, by omega, h⟩))
      · rw [respond_eq_next] at h
        exact .inr (.inr (.inr ⟨c, hp', rfl, by omega, h⟩))
  · rename_i hp
    rw [illegalCommand_eq_next] at h
    exact .inl ⟨fun h' => hp ((sessionOpen_eq_true _).2 h'), h⟩

theorem execEncEnd_next {s t : State} (h : exec .encEnd s = .next t) :
    (s.enc.flags.phase ≠ .active ∧ t = s.setResp ⟨.illegalCmd, 0⟩) ∨
    (s.enc.flags.phase = .active ∧
      t = (s.setEnc ((flushAcc s.enc).setFlags (doneFlags s.enc.flags))).setResp
        (if s.enc.nbits = 0 then ⟨.nothing, 0⟩ else ⟨.ok, s.enc.nbits⟩)) := by
  change execEncEnd s = .next t at h
  unfold execEncEnd at h
  split at h
  · rename_i hp
    refine .inr ⟨(sessionOpen_eq_true _).1 hp, ?_⟩
    dsimp only at h
    split at h <;> rename_i hn <;> rw [respond_eq_next] at h <;> simp only [hn, if_true, if_false, h]
  · rename_i hp
    rw [illegalCommand_eq_next] at h
    exact .inl ⟨fun h' => hp ((sessionOpen_eq_true _).2 h'), h⟩

theorem execDecStart_next {n : Nat} {s t : State} (h : exec (.decStart n) s = .next t) :
    (2 ^ s.params.cntw ≤ n ∧ t = s.setResp ⟨.illegalCmd, 0⟩) ∨
    (n < 2 ^ s.params.cntw ∧ Distinct s.params.rom ∧ t = (s.setDec (openDecoder n)).setResp ⟨.ok, 0⟩) := by
  change execDecStart n s = .next t at h
  unfold execDecStart at h
  split at h
  · rename_i hn
    rw [withDistinct_eq_next, respond_eq_next] at h
    exact .inr ⟨by simpa [countFits] using hn, h⟩
  · rename_i hn
    rw [illegalCommand_eq_next] at h
    exact .inl ⟨by simpa [countFits] using hn, h⟩

theorem execDecPut_next {p : Byte} {s t : State} (h : exec (.decPut p) s = .next t) :
    (s.dec.flags.phase ≠ .active ∧ t = s.setResp ⟨.illegalCmd, 0⟩) ∨
    (∃ d, s.dec.flags.phase = .active ∧ Distinct s.params.rom ∧ decBits s.params.rom s.dec (byteBits p) = .ok d ∧
      t = (s.setDec d).setResp ⟨.ok, d.nout⟩) ∨
    (∃ d, s.dec.flags.phase = .active ∧ Distinct s.params.rom ∧
      decBits s.params.rom s.dec (byteBits p) = .malformed d ∧
      t = (s.setDec (d.setFlags (errorFlags .malformed (d.pos - d.plen)))).setResp
        ⟨.err .malformed, d.pos - d.plen⟩) := by
  change execDecPut p s = .next t at h
  unfold execDecPut at h
  split at h
  · rename_i hp
    have hp' := (sessionOpen_eq_true _).1 hp
    rw [withDistinct_eq_next] at h
    obtain ⟨hd, h⟩ := h
    rcases hb : decBits s.params.rom s.dec (byteBits p) with d | d | _
    · rw [hb] at h
      exact .inr (.inl ⟨d, hp', hd, rfl, (respond_eq_next _ _ _ _).1 h⟩)
    · rw [hb] at h
      exact .inr (.inr ⟨d, hp', hd, rfl, (raise_eq_next _ _ _ _ _).1 h⟩)
    · exact absurd hb (decBits_ne_ambiguous hd _ _)
  · rename_i hp
    rw [illegalCommand_eq_next] at h
    exact .inl ⟨fun h' => hp ((sessionOpen_eq_true _).2 h'), h⟩

theorem execDecEnd_next {s t : State} (h : exec .decEnd s = .next t) :
    (s.dec.flags.phase ≠ .active ∧ t = s.setResp ⟨.illegalCmd, 0⟩) ∨
    (s.dec.flags.phase = .active ∧ Distinct s.params.rom ∧ (s.dec.pos < s.dec.nbits ∨ s.dec.plen ≠ 0) ∧
      t = (s.setUnitFlags .dec (errorFlags .truncated (s.dec.pos - s.dec.plen))).setResp
        ⟨.err .truncated, s.dec.pos - s.dec.plen⟩) ∨
    (s.dec.flags.phase = .active ∧ Distinct s.params.rom ∧ s.dec.nbits ≤ s.dec.pos ∧ s.dec.plen = 0 ∧
      t = (s.setDec (s.dec.setFlags (doneFlags s.dec.flags))).setResp ⟨.ok, s.dec.nout⟩) := by
  change execDecEnd s = .next t at h
  unfold execDecEnd at h
  split at h
  · rename_i hp
    have hp' := (sessionOpen_eq_true _).1 hp
    rw [withDistinct_eq_next] at h
    obtain ⟨hd, h⟩ := h
    split at h
    · rename_i hc
      rw [raise_eq_next] at h
      exact .inr (.inl ⟨hp', hd, hc, h⟩)
    · rename_i hc
      rw [respond_eq_next] at h
      exact .inr (.inr ⟨hp', hd, by omega, by omega, h⟩)
  · rename_i hp
    rw [illegalCommand_eq_next] at h
    exact .inl ⟨fun h' => hp ((sessionOpen_eq_true _).2 h'), h⟩

theorem execRdreg_next {r : RegNum} {s t : State} (h : exec (.rdreg r) s = .next t) :
    (statusRegOf r = none ∧ t = s.setResp ⟨.illegalCmd, 0⟩) ∨
    (∃ q, statusRegOf r = some q ∧ t = s.setResp ⟨.ok, readStatusReg q s⟩) := by
  change execRdreg r s = .next t at h
  unfold execRdreg at h
  rcases hq : statusRegOf r with _ | q
  · rw [hq] at h
    exact .inl ⟨rfl, (illegalCommand_eq_next _ _).1 h⟩
  · rw [hq] at h
    exact .inr ⟨q, rfl, (respond_eq_next _ _ _ _).1 h⟩

theorem execRst_next (s t : State) :
    exec .rst s = .next t ↔ t = ((s.setEnc Encoder.reset).setDec Decoder.reset).setResp ⟨.ok, 0⟩ := by
  simp [exec, execRst]

end Sys2Proof.Machine
end

