-- ==== Sys2Proof/Laws/PerInstr.lean ====
section
/-! SUPPORT. Facts about every command as syntax, one lemma per constructor. Family `DataFits`: the operand of a
well-formed command fits the `CNTW` bits of its field (R61, R64) and its opcode four bits (R60). -/

namespace Sys2Proof.Laws.DataFits

/-- What the family says of a command. -/
def Statement (i : Instr) : Prop :=
  ∀ cntw, Config.cntwMin ≤ cntw → i.wf cntw = true → i.data < 2 ^ cntw ∧ i.opcode < 16

theorem small_lt {cntw n : Nat} (h : Config.cntwMin ≤ cntw) (hn : n < 512) : n < 2 ^ cntw :=
  lt_of_lt_of_le hn (Nat.pow_le_pow_right (n := 2) (i := 9) (by decide) h)

theorem encStart : Statement .encStart := fun _ h _ => ⟨small_lt h (by decide), by simp [Instr.opcode]⟩

theorem encPut (b : Byte) : Statement (.encPut b) :=
  fun _ h _ => ⟨small_lt h (by have := b.isLt; simp only [Instr.data]; omega), by simp [Instr.opcode]⟩

theorem encEnd : Statement .encEnd := fun _ h _ => ⟨small_lt h (by decide), by simp [Instr.opcode]⟩

theorem decStart (n : Nat) : Statement (.decStart n) :=
  fun _ _ hw => ⟨by simpa [Instr.wf, Instr.data] using hw, by simp [Instr.opcode]⟩

theorem decPut (p : Byte) : Statement (.decPut p) :=
  fun _ h _ => ⟨small_lt h (by have := p.isLt; simp only [Instr.data]; omega), by simp [Instr.opcode]⟩

theorem decEnd : Statement .decEnd := fun _ h _ => ⟨small_lt h (by decide), by simp [Instr.opcode]⟩

theorem rdreg (r : RegNum) : Statement (.rdreg r) :=
  fun _ h _ => ⟨small_lt h (by have := r.isLt; simp only [Instr.data]; omega), by simp [Instr.opcode]⟩

theorem rst : Statement .rst := fun _ h _ => ⟨small_lt h (by decide), by simp [Instr.opcode]⟩

end Sys2Proof.Laws.DataFits
end

