-- ==== Sys2Proof/Machine/Assembler.lean ====
section
/-! DEFINITION. Assembler lines (R68) and the two pseudo-commands (R69): from the characters of one line to the commands
it stands for. It lies outside the block (the block sees words only); log 15. -/

namespace Sys2Proof.Machine

/-- The name of a status register (R25). -/
def statusRegName : StatusReg → String
  | .encPhase => "ENC_PHASE"
  | .encErr => "ENC_ERR"
  | .encEinfo => "ENC_EINFO"
  | .encNbits => "ENC_NBITS"
  | .encNsym => "ENC_NSYM"
  | .encNacc => "ENC_NACC"
  | .encAcc => "ENC_ACC"
  | .decPhase => "DEC_PHASE"
  | .decErr => "DEC_ERR"
  | .decEinfo => "DEC_EINFO"
  | .decNbits => "DEC_NBITS"
  | .decPos => "DEC_POS"
  | .decPlen => "DEC_PLEN"
  | .decNout => "DEC_NOUT"
  | .tblMaxlen => "TBL_MAXLEN"
  | .tblNcodes => "TBL_NCODES"

/-- The value of a digit in a base, letters of either case. -/
def digitValue (base : Nat) (c : Char) : Option Nat :=
  let n := c.toNat
  let d := if 48 ≤ n ∧ n ≤ 57 then n - 48 else if 97 ≤ n ∧ n ≤ 102 then n - 87
    else if 65 ≤ n ∧ n ≤ 70 then n - 55 else base
  if d < base then some d else none

/-- A non-empty numeral in a base. -/
def numeral (base : Nat) (cs : List Char) : Option Nat :=
  if cs = [] then none
  else cs.foldl (fun a c => a.bind (fun n => (digitValue base c).map (fun d => n * base + d))) (some 0)

/-- A decimal number: a count operand (R68). -/
def decimalOperand (cs : List Char) : Option Nat := numeral 10 cs

/-- The characters `'c'` of a quoted character, if that is what `cs` is. DESIGN CHOICE (log 15): R68 does not say whether a
quote may itself stand quoted; here `c` may be any character, a quote of either kind included. -/
def quotedChar (cs : List Char) : Option Char :=
  match cs with
  | [q, c, q'] => if q = Char.ofNat 39 ∧ q' = Char.ofNat 39 then some c else none
  | _ => none

/-- A byte operand: hexadecimal `0x61`, decimal `97`, or a character in single quotes meaning its ASCII value (R68, G1). -/
def byteOperand (cs : List Char) : Option Byte :=
  let value : Option Nat :=
    match quotedChar cs with
    | some c => if c.toNat < 128 then some c.toNat else none
    | none => if cs.take 2 = "0x".toList then numeral 16 (cs.drop 2) else numeral 10 cs
  value.bind (fun n => if n < 256 then some (BitVec.ofNat 8 n) else none)

/-- The register numbers, ascending. -/
def allRegNums : List RegNum := (List.range 32).map (BitVec.ofNat 5)

/-- A register operand: its name from R25, or its number (R68). DESIGN CHOICE (log 15): R68 does not give the base of the
number, and here it is a decimal numeral. -/
def registerOperand (cs : List Char) : Option RegNum :=
  match allRegNums.find? (fun r => (statusRegOf r).map (fun q => (statusRegName q).toList) = some cs) with
  | some r => some r
  | none => (numeral 10 cs).bind (fun n => if n < 32 then some (BitVec.ofNat 5 n) else none)

/-- Drop a comment, from `;` to the end of the line (R68); a `;` between quotes of either kind is text. The first
argument is the quote that is open, if any. DESIGN CHOICE (log 15): R68 and R69 are silent on a quote between quotes of
its own kind; here every one of them closes or opens, so after an odd number of them a `;` is text. -/
def dropComment : Option Char → List Char → List Char
  | _, [] => []
  | some q, c :: cs => c :: dropComment (if c = q then none else some q) cs
  | none, c :: cs =>
    if c = Char.ofNat 59 then []
    else c :: dropComment (if c = Char.ofNat 34 ∨ c = Char.ofNat 39 then some c else none) cs

/-- Without the blanks at both ends. -/
def trimBlanks (cs : List Char) : List Char := ((cs.dropWhile (· == ' ')).reverse.dropWhile (· == ' ')).reverse

/-- The items of a bracketed list (R69), each trimmed; none for `[]`. DESIGN CHOICE (log 15): R69 does not say how the
items are written; here each is a byte operand of R68, and the list is cut at every `,`, so the item `','` is not read. -/
def listItems (cs : List Char) : List (List Char) :=
  if trimBlanks cs = [] then [] else (cs.splitOn ',').map trimBlanks

/-- A byte sequence: text in double quotes, or a bracketed list of byte operands (R69). DESIGN CHOICE (log 15): R69 does not
say whether a double quote may stand in the text; here the text runs from the first character to the last, and a double
quote between them is that character. -/
def bytesOperand (cs : List Char) : Option (List Byte) :=
  let inner := (cs.drop 1).dropLast
  if cs.length < 2 then none
  else if cs.head? = some (Char.ofNat 34) ∧ cs.getLast? = some (Char.ofNat 34) then
    inner.mapM (fun c => if c.toNat < 128 then some (BitVec.ofNat 8 c.toNat) else none)
  else if cs.head? = some '[' ∧ cs.getLast? = some ']' then (listItems inner).mapM byteOperand
  else none

/-- The operands of DECODE: a bracketed list, a comma, a count (R69). DESIGN CHOICE (log 15): the list ends at the first
`]`, and a line with a second one is not read, so the item `']'` is not read either. -/
def decodeOperands (cs : List Char) : Option (List Byte × Nat) :=
  match cs.splitOn ']' with
  | [items, count] =>
    let rest := trimBlanks count
    if rest.head? = some ',' then
      (bytesOperand (items ++ [']'])).bind (fun P =>
        (decimalOperand (trimBlanks (rest.drop 1))).map (fun n => (P, n)))
    else none
  | _ => none

/-- The commands of a line with a mnemonic and an operand (R68, R69); the operand of a format Z command is empty. -/
def readCommand (name operand : List Char) : Option (List Instr) :=
  let plain (i : Instr) : Option (List Instr) := if operand = [] then some [i] else none
  if name = "ENC_START".toList then plain .encStart
  else if name = "ENC_PUT".toList then (byteOperand operand).map (fun b => [.encPut b])
  else if name = "ENC_END".toList then plain .encEnd
  else if name = "DEC_START".toList then (decimalOperand operand).map (fun n => [.decStart n])
  else if name = "DEC_PUT".toList then (byteOperand operand).map (fun b => [.decPut b])
  else if name = "DEC_END".toList then plain .decEnd
  else if name = "RDREG".toList then (registerOperand operand).map (fun r => [.rdreg r])
  else if name = "RST".toList then plain .rst
  else if name = "ENCODE".toList then (bytesOperand operand).map encodeCommands
  else if name = "DECODE".toList then (decodeOperands operand).map (fun x => decodeCommands x.1 x.2)
  else none

/-- One line of assembler text: its commands (none for an empty line), or nothing when it is no line of R68. -/
def readLine (line : List Char) : Option (List Instr) :=
  let cs := trimBlanks (dropComment none line)
  if cs = [] then some []
  else readCommand (cs.takeWhile (· != ' ')) (trimBlanks (cs.dropWhile (· != ' ')))

end Sys2Proof.Machine
end

