-- ==== Sys2Proof/Tests/Slice0.lean ====
section
/-! SUPPORT. Tests on fixed values, each expected value taken from spec/ (the place is named), and one witness for the
hypotheses of each statement. -/

namespace Sys2Proof.Tests

open Sys2Proof.Machine

/-! ## Helpers -/

/-- The next state of an outcome, if it is one. -/
def nextOf : Result → Option State
  | .next t => some t
  | .fault _ => none
  | .refused _ => none

/-- The next state of an outcome that is known to have one. -/
theorem exists_next {r : Result} (h : (nextOf r).isSome = true) : ∃ t, r = .next t := by
  cases r with
  | next t => exact ⟨t, rfl⟩
  | fault _ => cases h
  | refused _ => cases h

/-- What a test reads of an outcome. -/
def seen {α : Type} (r : Result) (f : State → α) : Option α := (nextOf r).map f

/-- The image I1 (95_test_vectors.md part 2). -/
def i1 : Image := [(0x61, ⟨1, 0⟩), (0x62, ⟨2, 2⟩), (0x63, ⟨3, 6⟩), (0x64, ⟨3, 7⟩)]

/-- The image I2. -/
def i2 : Image := [(0x61, ⟨1, 0⟩)]

/-- The image I3. -/
def i3 : Image := [(0x61, ⟨2, 0⟩), (0x62, ⟨2, 1⟩), (0x63, ⟨2, 2⟩)]

/-- The image I4: distinct, not prefix-free. -/
def i4 : Image := [(0x61, ⟨1, 0⟩), (0x62, ⟨2, 1⟩)]

/-- An image with one code for two symbols (R110). -/
def iDup : Image := [(0x61, ⟨1, 0⟩), (0x62, ⟨1, 0⟩)]

/-- An instance after reset with image `img` and the default `CNTW`. -/
def start (img : Image) : State := State.resetWith ⟨32, img⟩

/-- `start img` with unit ENC in an open session with these registers. -/
def encoding (img : Image) (acc : Byte) (nacc : Fin 8) (nbits nsym : Nat) (out : List Byte) : State :=
  (start img).setEnc ⟨⟨.active, none, 0⟩, acc, nacc, nbits, nsym, out⟩

/-- `start img` with unit DEC in an open session with these registers. -/
def decoding (img : Image) (nbits pos : Nat) (pfx : Bits) (out : List Byte) : State :=
  (start img).setDec ⟨⟨.active, none, 0⟩, nbits, pos, pfx, out.length, out⟩

/-! ## Well-formedness: each check refuses its ill-formed term -/

theorem test_wf_count_too_wide : Instr.wf 32 (.decStart (2 ^ 32)) = false := by decide
theorem test_wf_count_widest : Instr.wf 32 (.decStart (2 ^ 32 - 1)) = true := by decide
theorem test_wf_reserved_registers :
    (Instr.wf 32 (.rdreg 7), Instr.wf 32 (.rdreg 15), Instr.wf 32 (.rdreg 18), Instr.wf 32 (.rdreg 31)) =
      (false, false, false, false) := by decide
theorem test_wf_last_register : Instr.wf 32 (.rdreg 17) = true := by decide
theorem test_image_wf_refuses_disorder : ¬ Image.wf [(0x62, ⟨2, 2⟩), (0x61, ⟨1, 0⟩)] := by decide
theorem test_image_wf_refuses_absent : ¬ Image.wf [(0x61, ⟨0, 0⟩)] := by decide

/-! ## Decoding, from the words of R62 and 95_test_vectors.md part 4 -/

theorem test_decode_encStart : decodeTableWord 40 0b0001_00000000_00000000_00000000_00000000 = some .encStart := by decide
theorem test_decode_encPut : decodeTableWord 40 0b0010_00000000_00000000_00000000_01100001 = some (.encPut 0x61) := by
  decide
theorem test_decode_encEnd : decodeTableWord 40 0b0011_00000000_00000000_00000000_00000000 = some .encEnd := by decide
theorem test_decode_decStart : decodeTableWord 40 0b0101_00000000_00000000_00000000_00001110 = some (.decStart 14) := by
  decide
theorem test_decode_decPut : decodeTableWord 40 0b0110_00000000_00000000_00000000_11001000 = some (.decPut 0xC8) := by
  decide
theorem test_decode_decEnd : decodeTableWord 40 0b0111_00000000_00000000_00000000_00000000 = some .decEnd := by decide
theorem test_decode_rdreg : decodeTableWord 40 0b1000_00000000_00000000_00000000_00001100 = some (.rdreg 12) := by decide
theorem test_decode_rst : decodeTableWord 40 0b1111_00000000_00000000_00000000_00000000 = some .rst := by decide
/-- X1 to X7. -/
theorem test_decode_illegal :
    [0x000000000, 0xFFFFFFFFF, 0x400000000, 0x200000161, 0x100000001, 0x800000007, 0x800000020].map (decode 32) =
      [.error .reservedOpcode, .error .mustBeZero, .error .reservedOpcode, .error .mustBeZero, .error .mustBeZero,
        .error .reservedRegister, .error .mustBeZero] := by decide
theorem test_decode_too_wide : decode 32 0x1000000000 = .error .notAWord := by decide
/-- R60 at `CNTW = 9`: 13-bit words. -/
theorem test_decode_cntw9 : decode 9 (0b0010_001100001) = .ok (.encPut 0x61) := by decide

/-! ## The ROM: vectors M1 to M13 -/

theorem test_romLookup : (romLookup i1 0x61, romLookup i1 0x64, romLookup i1 0x65, romLookup i1 0x00) =
    (some [false], some [true, true, true], none, none) := by decide
theorem test_romMatch :
    (romMatch i1 1 [false], romMatch i1 1 [true], romMatch i1 2 [true, false], romMatch i1 3 [true, true, false],
      romMatch i1 3 [false, false, false]) = (.some 0x61, .none, .some 0x62, .some 0x63, .none) := by decide
theorem test_romMatch_unspecified : romMatch iDup 1 [false] = .unspecified := by decide
theorem test_maxlen_ncodes : ((maxLen i1, nCodes i1), (maxLen i3, nCodes i3), (maxLen [], nCodes [])) =
    ((3, 4), (2, 3), (0, 0)) := by decide
theorem test_ignored_bits : romLookup [(0x61, ⟨1, 2⟩)] 0x61 = some [false] := by decide

/-! ## ENC -/

theorem test_encStart_from_error :
    seen (exec .encStart ((start i1).setEnc ⟨⟨.error, some .byteNotInTable, 98⟩, 5, 3, 11, 9, [1]⟩))
      (fun t => (t.enc, t.resp)) = some (⟨⟨.active, none, 0⟩, 0, 0, 0, 0, []⟩, some ⟨.ok, 0⟩) := by decide
/-- R117's example, `ENC_PUT 'c'`. -/
theorem test_encPut_keeps_pending :
    seen (exec (.encPut 0x63) (encoding i1 0b0100 4 4 3 [])) (fun t => (t.enc, t.resp)) =
      some (⟨⟨.active, none, 0⟩, 0b0100110, 7, 7, 4, []⟩, some ⟨.ok, 7⟩) := by decide
/-- R117's example, the second `ENC_PUT 'a'`: the byte 0x4C is full. -/
theorem test_encPut_emits :
    seen (exec (.encPut 0x61) (encoding i1 0b0100110 7 7 4 [])) (fun t => (t.enc, t.resp)) =
      some (⟨⟨.active, none, 0⟩, 0, 0, 8, 5, [0x4C]⟩, some ⟨.ok, 8⟩) := by decide
/-- E11: the error entry of P4. -/
theorem test_encPut_absent :
    seen (exec (.encPut 0x62) (encoding i2 0 1 1 1 [])) (fun t => (t.enc, t.resp)) =
      some (⟨⟨.error, some .byteNotInTable, 0x62⟩, 0, 1, 1, 1, []⟩, some ⟨.err .byteNotInTable, 98⟩) := by decide
/-- 95_test_vectors.md 3.3: `NBITS` may reach `2^CNTW - 1` exactly and no further. -/
theorem test_encPut_overflow :
    (seen (exec (.encPut 0x61) (encoding i2 0 6 0xFFFFFFFE 0xFFFFFFFE [])) (fun t => t.resp),
      seen (exec (.encPut 0x61) (encoding i2 0 7 0xFFFFFFFF 0xFFFFFFFF [])) (fun t => (t.enc.nbits, t.resp))) =
      (some (some ⟨.ok, 0xFFFFFFFF⟩), some (0xFFFFFFFF, some ⟨.err .countOverflow, 0x61⟩)) := by decide
/-- R169: the absent byte is tested before the overflow. -/
theorem test_encPut_priority :
    seen (exec (.encPut 0x62) (encoding i2 0 7 0xFFFFFFFF 0xFFFFFFFF [])) (fun t => t.resp) =
      some (some ⟨.err .byteNotInTable, 0x62⟩) := by decide
/-- R118's example. -/
theorem test_encEnd_pads :
    seen (exec .encEnd (encoding i1 0b100111 6 14 8 [0x4C])) (fun t => (t.enc, t.resp)) =
      some (⟨⟨.done, none, 0⟩, 0, 0, 14, 8, [0x4C, 0x9C]⟩, some ⟨.ok, 14⟩) := by decide
/-- E3: nothing to compress. -/
theorem test_encEnd_nothing :
    seen (exec .encEnd (encoding [] 0 0 0 0 [])) (fun t => (t.enc.flags.phase, t.enc.out, t.resp)) =
      some (.done, [], some ⟨.nothing, 0⟩) := by decide

/-! ## DEC -/

theorem test_decStart :
    seen (exec (.decStart 14) (start i1)) (fun t => (t.dec, t.resp)) =
      some (⟨⟨.active, none, 0⟩, 14, 0, [], 0, []⟩, some ⟨.ok, 0⟩) := by decide
/-- R110: the refusal. -/
theorem test_decStart_ambiguous : exec (.decStart 14) (start iDup) = .refused .ambiguousImage := by rfl
/-- P2, first byte. -/
theorem test_decPut_first :
    seen (exec (.decPut 0x4C) (decoding i1 14 0 [] [])) (fun t => (t.dec.out, t.dec.pos, t.dec.pfx, t.resp)) =
      some ([0x61, 0x62, 0x61, 0x63, 0x61], 8, [], some ⟨.ok, 5⟩) := by decide +kernel
/-- DV18: the ninth bit arrives while `PLEN = MAXLEN`. -/
theorem test_decPut_malformed :
    seen (exec (.decPut 0x00) (decoding i3 9 8 [true, true] [0x61, 0x62, 0x63])) (fun t => (t.dec, t.resp)) =
      some (⟨⟨.error, some .malformed, 6⟩, 9, 8, [true, true], 3, [0x61, 0x62, 0x63]⟩, some ⟨.err .malformed, 6⟩) := by
  decide +kernel
/-- DV11: the bits before the offending one stand. -/
theorem test_decPut_malformed_inside :
    seen (exec (.decPut 0x40) (decoding i2 4 0 [] [])) (fun t => (t.dec, t.resp)) =
      some (⟨⟨.error, some .malformed, 1⟩, 4, 2, [true], 1, [0x61]⟩, some ⟨.err .malformed, 1⟩) := by decide +kernel
/-- DV21: a byte given to an empty region is ignored. -/
theorem test_decPut_beyond :
    seen (exec (.decPut 0xFF) (decoding i1 0 0 [] [])) (fun t => (t.dec.pos, t.dec.pfx, t.resp)) =
      some (0, [], some ⟨.ok, 0⟩) := by decide +kernel
/-- P2's end. -/
theorem test_decEnd :
    seen (exec .decEnd (decoding i1 14 14 [] [0x61, 0x62])) (fun t => (t.dec.flags.phase, t.resp)) =
      some (.done, some ⟨.ok, 2⟩) := by decide
/-- DV5, DV6: a pending prefix, and missing bytes. -/
theorem test_decEnd_truncated :
    (seen (exec .decEnd (decoding i1 13 13 [true, true] [])) (fun t => (t.dec.flags, t.resp)),
      seen (exec .decEnd (decoding i1 14 8 [] [])) (fun t => (t.dec.flags, t.resp))) =
      (some (⟨.error, some .truncated, 11⟩, some ⟨.err .truncated, 11⟩),
        some (⟨.error, some .truncated, 8⟩, some ⟨.err .truncated, 8⟩)) := by decide

/-! ## System commands, illegal commands, the step -/

/-- X12, X13, and P4's reads in phase ERROR. -/
theorem test_rdreg :
    (seen (exec (.rdreg 16) (start i1)) (fun t => t.resp), seen (exec (.rdreg 17) (start i1)) (fun t => t.resp),
      seen (exec (.rdreg 9) ((start i2).setDec ⟨⟨.error, some .malformed, 1⟩, 4, 2, [true], 1, [0x61]⟩))
        (fun t => t.resp),
      seen (exec (.rdreg 13) ((start i2).setDec ⟨⟨.error, some .malformed, 1⟩, 4, 2, [true], 1, [0x61]⟩))
        (fun t => t.resp)) =
      (some (some ⟨.ok, 3⟩), some (some ⟨.ok, 4⟩), some (some ⟨.ok, 11⟩), some (some ⟨.ok, 1⟩)) := by decide
theorem test_rst :
    seen (exec .rst (encoding i1 0b100111 6 14 8 [0x4C])) (fun t => (t.enc, t.dec, t.params.rom, t.resp)) =
      some (Encoder.reset, Decoder.reset, i1, some ⟨.ok, 0⟩) := by decide
/-- X2: the all-ones word resets nothing. -/
theorem test_step_all_ones :
    seen (step ((encoding i1 0b100111 6 14 8 [0x4C]).setCommands [0xFFFFFFFFF])) (fun t => (t.enc, t.resp)) =
      some ((encoding i1 0b100111 6 14 8 [0x4C]).enc, some ⟨.illegalCmd, 0⟩) := by decide
/-- X8: ENC_PUT in phase IDLE, as the first command after reset. -/
theorem test_step_from_reset :
    seen (step (State.reset.withFetchWord 40 0x200000061)) (fun t => (t.enc, t.resp)) =
      some (Encoder.reset, some ⟨.illegalCmd, 0⟩) := by decide
theorem test_step_start_from_reset :
    seen (step (State.reset.withFetchWord 40 0x50000000E)) (fun t => (t.dec.flags.phase, t.dec.nbits, t.commands)) =
      some (.active, 14, []) := by decide
theorem test_response_word : (Response.word 32 ⟨.err .byteNotInTable, 0x65⟩) = 0x900000065 := by decide

/-! ## Batch functions and table generation -/

/-- The bytes of a text in ASCII (G1). -/
def ascii (s : String) : List Byte := s.toList.map (fun c => BitVec.ofNat 8 c.toNat)

/-- E1, DV1, DV8, DV10. -/
theorem test_encodeBatch : encodeBatch i1 (ascii "abacabad") = .ok ⟨[0x4C, 0x9C], 14⟩ := by decide +kernel
theorem test_decodeBatch : decodeBatch i1 [0x4C, 0x9C] 14 = .ok (ascii "abacabad") := by decide +kernel
theorem test_decodeBatch_count_too_large : decodeBatch i1 [0x4C, 0x9C] 16 = .ok (ascii "abacabadaa") := by decide +kernel
theorem test_decodeBatch_silent_corruption : decodeBatch i1 [0x4C, 0x98] 14 = .ok (ascii "abacabac") := by decide +kernel
/-- DV17 and DV18: the boundary between the two errors; DV19. -/
theorem test_decodeBatch_errors :
    (decodeBatch i3 [0x1B] 8, decodeBatch i3 [0x1B, 0x00] 9, decodeBatch i4 [0x40] 2) =
      (.error .truncated, .error .malformed, .error .truncated) := by decide +kernel
/-- T3 (R90), T5, T6. -/
theorem test_genImage : genImage (ascii "abacabad") = i1 := by decide +kernel
theorem test_genTable_mississippi :
    genTable (ascii "mississippi") = [(0x73, [false]), (0x6D, [true, false, false]), (0x70, [true, false, true]),
      (0x69, [true, true])] := by decide +kernel
theorem test_genImage_sole_symbol : genImage (ascii "aaaa") = i2 := by decide +kernel
/-- R89: S2's sum is 14. -/
theorem test_weightedSum : weightedSum i1 (ascii "abacabad") = 14 := by decide +kernel

/-! ## Assembler lines (R68, R69) -/

theorem test_readLine_bytes :
    ["ENC_PUT 0x61", "ENC_PUT 97 ; the same", "ENC_PUT 'a'"].map (fun l => readLine l.toList) =
      [some [.encPut 0x61], some [.encPut 0x61], some [.encPut 0x61]] := by decide +kernel
theorem test_readLine_pseudo :
    (readLine "DECODE [0x4C, 0x9C], 14".toList, readLine "ENCODE \"ab\"".toList, readLine "RDREG DEC_POS".toList) =
      (some (decodeCommands [0x4C, 0x9C] 14), some (encodeCommands [0x61, 0x62]), some [.rdreg 12]) := by
  decide +kernel

/-! ## Witnesses: for each statement with hypotheses, concrete values that meet all of them together -/

theorem i1_prefixFree : PrefixFree i1 := (prefixFree_iff i1).2 (by decide +kernel)

/-- A state in the middle of an encode session (R118's example) and of a decode session (DV5: "11" pending). -/
def mid : State := (encoding i1 0b100111 6 14 8 [0x4C]).setDec
  ⟨⟨.active, none, 0⟩, 14, 13, [true, true], 7, ascii "abacaba"⟩

theorem mid_inv : StateInv mid where
  params_wf := by decide
  enc_fits := ⟨by decide, by decide, by decide⟩
  dec_fits := ⟨by decide, by decide, by decide, by decide, by decide⟩
  enc_inv :=
    { nacc_open := by decide, nacc_closed := by decide, acc_high := by decide, out_open := by decide,
      out_done := by decide, nsym_le := by decide, err_iff := by decide, einfo_zero := by decide,
      err_kind := (by intro k h; cases h), idle_reset := by decide }
  dec_inv :=
    { pos_le := by decide, plen_le_max := by decide, plen_le_pos := by decide, nout_eq := by decide,
      nout_le := by decide, err_iff := by decide,
      no_match := fun _ => (no_match_iff i1 [true, true]).2 (by decide +kernel),
      einfo_zero := by decide, err_kind := (by intro k h; cases h), done_exact := by decide, idle_reset := by decide }
  ports_fit := ⟨by decide, by intro r h; cases h⟩

/-- DV18's state before the ninth bit: `PLEN = MAXLEN` in an open session. -/
theorem full_prefix_inv : DecoderInv i3 ⟨⟨.active, none, 0⟩, 9, 8, [true, true], 3, [0x61, 0x62, 0x63]⟩ :=
  { pos_le := by decide, plen_le_max := by decide, plen_le_pos := by decide, nout_eq := by decide,
    nout_le := by decide, err_iff := by decide,
    no_match := fun _ => (no_match_iff i3 [true, true]).2 (by decide +kernel),
    einfo_zero := by decide, err_kind := (by intro k h; cases h), done_exact := by decide, idle_reset := by decide }

theorem witness_DecodeOfEncodeIsTheCommand :
    Config.cntwMin ≤ 9 ∧ (Instr.decStart 511).wf 9 = true ∧ (Instr.encPut 255).wf 9 = true ∧
      (Instr.rdreg 17).wf 9 = true := by decide
theorem witness_EncodeOfDecodeIsTheWord : Config.cntwMin ≤ 9 ∧ decode 9 (5 * 512 + 511) = .ok (.decStart 511) := by decide
theorem witness_IllegalCommandsChangeNothing_illegal :
    let s := mid.setCommands [0x800000012]
    Config.cntwMin ≤ s.params.cntw ∧ 0x800000012 < 2 ^ (4 + s.params.cntw) ∧ s.commands = [0x800000012] ∧
      0x800000012 / 2 ^ s.params.cntw = 8 ∧ 0x800000012 % 2 ^ s.params.cntw = 18 := by decide
theorem witness_IllegalCommandsChangeNothing_legal :
    let s := (start i1).setCommands [0x2000000FF]
    Config.cntwMin ≤ s.params.cntw ∧ 0x2000000FF < 2 ^ (4 + s.params.cntw) ∧ s.commands = [0x2000000FF] ∧
      0x2000000FF / 2 ^ s.params.cntw = 2 ∧ 0x2000000FF % 2 ^ s.params.cntw = 255 ∧
      legalByPhase (.encPut 255) s = false := by decide
theorem witness_ResponseWordCarriesBothFields : (⟨.ok, 511⟩ : Response).value < 2 ^ 9 := by decide
theorem witness_StepRunsTheDecodedCommand :
    let s := (start i1).setCommands [0x100000000]
    s.commands = [0x100000000] ∧ decode s.params.cntw 0x100000000 = .ok .encStart := by decide
theorem witness_StepWaitsForACommand : (start i1).commands = [] := rfl
theorem witness_PresentedCommandsRunInIssueOrder :
    Config.cntwMin ≤ (start i1).params.cntw ∧
      ∀ i ∈ [Instr.encStart, .encPut 0x61, .decStart (2 ^ 32 - 1)], i.wf (start i1).params.cntw = true := by decide
theorem witness_EveryCommandCompletesOnADistinctImage_distinct : Distinct (start i1).params.rom := by decide
theorem witness_EveryCommandCompletesOnADistinctImage_refused :
    exec (.decStart 14) (start iDup) = .refused .ambiguousImage := by rfl
theorem witness_StepNeverStopsOnADistinctImage : StateInv mid ∧ Distinct mid.params.rom := ⟨mid_inv, by decide⟩
theorem witness_EncPutAppendsTheCode_illegal : (start i1).enc.flags.phase ≠ .active := by decide
theorem witness_EncPutAppendsTheCode_absent :
    mid.enc.flags.phase = .active ∧ romLookup mid.params.rom 0x65 = none := by decide
theorem witness_EncPutAppendsTheCode_overflow :
    let s := encoding i2 0 7 0xFFFFFFFF 0xFFFFFFFF []
    s.enc.flags.phase = .active ∧ romLookup s.params.rom 0x61 = some [false] ∧
      2 ^ s.params.cntw - 1 < s.enc.nbits + [false].length := by decide
theorem witness_EncPutAppendsTheCode_fits :
    let s := encoding i2 0 6 0xFFFFFFFE 0xFFFFFFFE []
    s.enc.flags.phase = .active ∧ romLookup s.params.rom 0x61 = some [false] ∧
      s.enc.nbits + [false].length ≤ 2 ^ s.params.cntw - 1 ∧ s.enc.acc.toNat < 2 ^ s.enc.nacc.val := by decide
theorem witness_EncEndFlushesAndCloses :
    (start i1).enc.flags.phase ≠ .active ∧ mid.enc.flags.phase = .active ∧ mid.enc.acc.toNat < 2 ^ mid.enc.nacc.val ∧
      (encoding i1 0 0 0 0 []).enc.flags.phase = .active ∧ (encoding i1 0 0 0 0 []).enc.acc.toNat < 2 ^ 0 := by decide
theorem witness_DecStartOpensASession :
    Distinct (start i1).params.rom ∧ 2 ^ 32 - 1 < 2 ^ (start i1).params.cntw := by decide
theorem witness_DecodeSessionsAreRefusedOnAnAmbiguousImage :
    ¬ Distinct (decoding iDup 4 0 [] []).params.rom ∧ 2 ^ 32 - 1 < 2 ^ (decoding iDup 4 0 [] []).params.cntw ∧
      (decoding iDup 4 0 [] []).dec.flags.phase = .active := by decide
theorem witness_DecPutScansTheValidBits_illegal : (start i1).dec.flags.phase ≠ .active := by decide
theorem witness_DecPutScansTheValidBits_fits :
    mid.dec.flags.phase = .active ∧ Distinct mid.params.rom ∧ DecoderInv mid.params.rom mid.dec ∧
      (scan mid.params.rom (mid.dec.pfx ++ (byteBits 0xFF).take (mid.dec.nbits - mid.dec.pos))).2.length ≤
        maxLen mid.params.rom := ⟨by decide, by decide, mid_inv.dec_inv, by decide +kernel⟩
theorem witness_DecPutScansTheValidBits_malformed :
    let s := decoding i3 9 8 [true, true] [0x61, 0x62, 0x63]
    s.dec.flags.phase = .active ∧ Distinct s.params.rom ∧ DecoderInv s.params.rom s.dec ∧
      maxLen s.params.rom <
        (scan s.params.rom (s.dec.pfx ++ (byteBits 0x00).take (s.dec.nbits - s.dec.pos))).2.length :=
  ⟨by decide, by decide, full_prefix_inv, by decide +kernel⟩
theorem witness_DecBitTakesOneBit_malformed : (decoding i3 9 8 [true, true] []).dec.pfx.length = maxLen i3 := by decide
theorem witness_DecBitTakesOneBit_pending :
    (decoding i1 9 1 [true] []).dec.pfx.length ≠ maxLen i1 ∧
      ∀ s, Present i1 s → romCode i1 s ≠ [true] ++ [true] :=
  ⟨by decide, fun s hs => (by decide : ∀ s ∈ presentSyms i1, romCode i1 s ≠ [true, true]) s
    ((mem_presentSyms i1 s).2 hs)⟩
theorem witness_DecBitTakesOneBit_match :
    (decoding i1 9 2 [true, true] []).dec.pfx.length ≠ maxLen i1 ∧ Distinct i1 ∧ Present i1 0x64 ∧
      romCode i1 0x64 = [true, true] ++ [true] := by decide
theorem witness_BitsBeyondTheValidRegionDoNotMatter :
    (byteBits 0x9C).take (14 - 8) = (byteBits 0x9F).take (14 - 8) ∧
      ([0x4C, 0x9C].flatMap byteBits).take 14 = ([0x4C, 0x9F, 0xFF].flatMap byteBits).take 14 := by decide +kernel
theorem witness_DecEndClosesOrReportsTruncation :
    (start i1).dec.flags.phase ≠ .active ∧ mid.dec.flags.phase = .active ∧ Distinct mid.params.rom ∧
      (mid.dec.pos < mid.dec.nbits ∨ mid.dec.pfx ≠ []) ∧
      (let s := decoding i1 14 14 [] []
       s.dec.flags.phase = .active ∧ Distinct s.params.rom ∧ s.dec.nbits ≤ s.dec.pos ∧ s.dec.pfx = []) := by decide
theorem witness_RdregReadsEveryStatusRegister :
    ∀ r : RegNum, r ∈ [(7 : RegNum), 15, 18, 31] → r = 7 ∨ r = 15 ∨ 18 ≤ r.toNat := by decide
theorem witness_CodeBitsAreRightJustified : 0 < (romEntry i1 0x64).len.toNat ∧ 2 < (romEntry i1 0x64).len.toNat := by
  decide
theorem witness_RomMatchComparesEveryEntryOfTheLength :
    1 ≤ 3 ∧ [true, true, false].length = 3 ∧ (romEntry i1 0x63).len.toNat = 3 ∧ romCode i1 0x63 = [true, true, false] ∧
      romMatch iDup 1 [false] = .unspecified := by decide
theorem witness_PrefixFreeImagesAreDistinctAndMeetKraft : PrefixFree i1 := i1_prefixFree
theorem witness_TheEmptyImageEncodesAndDecodesNothing :
    (∀ b, ¬ Present State.reset.params.rom b) ∧ 0 < 1 ∧ 1 < 2 ^ State.reset.params.cntw :=
  ⟨fun _ h => h rfl, by decide, by decide⟩
theorem witness_LegalityDependsOnThePhaseAlone :
    (Instr.encPut 0x61).wf (start i1).params.cntw = true ∧ (start i1).enc.flags.phase ≠ .active ∧
      (start i1).dec.flags.phase ≠ .active ∧ (Instr.encStart).wf (start i1).params.cntw = true ∧
      (∃ t, exec .encStart (start i1) = .next t) := ⟨by decide, by decide, by decide, by decide, exists_next (by decide)⟩
theorem witness_EveryCommandReturnsAnAllowedStatus : ∃ t, exec .encEnd mid = .next t := exists_next (by decide)
theorem witness_ErrorEntryFreezesTheUnit :
    (∃ t, exec (.encPut 0x65) mid = .next t ∧ t.resp = some ⟨.err .byteNotInTable, 0x65⟩) ∧
      (∃ t, exec .decEnd mid = .next t ∧ t.resp = some ⟨.err .truncated, 11⟩) :=
  ⟨⟨_, rfl, rfl⟩, ⟨_, rfl, rfl⟩⟩

/-- An open encode session that took nothing. -/
theorem opened_inv : StateInv (encoding [] 0 0 0 0 []) where
  params_wf := by decide
  enc_fits := ⟨by decide, by decide, by decide⟩
  dec_fits := ⟨by decide, by decide, by decide, by decide, by decide⟩
  enc_inv :=
    { nacc_open := by decide, nacc_closed := by decide, acc_high := by decide, out_open := by decide,
      out_done := by decide, nsym_le := by decide, err_iff := by decide, einfo_zero := by decide,
      err_kind := (by intro k h; cases h), idle_reset := by decide }
  dec_inv :=
    { pos_le := by decide, plen_le_max := by decide, plen_le_pos := by decide, nout_eq := by decide,
      nout_le := by decide, err_iff := by decide, no_match := (by intro h; cases h),
      einfo_zero := by decide, err_kind := (by intro k h; cases h), done_exact := by decide, idle_reset := by decide }
  ports_fit := ⟨by decide, by intro r h; cases h⟩

theorem witness_NothingToCompressOnlyForAnEmptySession :
    StateInv (encoding [] 0 0 0 0 []) ∧
      ∃ t, exec .encEnd (encoding [] 0 0 0 0 []) = .next t ∧ t.resp = some ⟨.nothing, 0⟩ :=
  ⟨opened_inv, ⟨_, rfl, rfl⟩⟩

/-- Both units in phase ERROR (P5's end state, with the first bits taken as in DV11). -/
def bothError : State := ((start i2).setEnc ⟨⟨.error, some .byteNotInTable, 98⟩, 0, 1, 1, 1, []⟩).setDec
  ⟨⟨.error, some .malformed, 1⟩, 4, 2, [true], 1, [0x61]⟩

theorem witness_ErrorPhaseIsLeftOnlyByStartOrReset :
    bothError.enc.flags.phase = .error ∧ bothError.dec.flags.phase = .error ∧
      ∃ t, exec (.encPut 0x61) bothError = .next t := ⟨rfl, rfl, exists_next (by decide)⟩
theorem witness_PhasesChangeOnlyByTheirOwnCommands : ∃ t, exec .decEnd mid = .next t := exists_next (by decide)
theorem witness_NoCommandWritesTheRom : ∃ t, exec .rst mid = .next t := exists_next (by decide)
theorem witness_CommandsEmitWithinTheirBounds :
    (∃ t, exec (.encPut 0x64) mid = .next t) ∧ (∃ t, exec .encEnd mid = .next t) ∧
      ∃ t, exec (.decPut 0xFF) mid = .next t :=
  ⟨exists_next (by decide), exists_next (by decide), exists_next (by decide +kernel)⟩
theorem witness_StreamsGrowUntilStartOrReset : ∃ t, exec .encEnd mid = .next t := exists_next (by decide)
theorem witness_DecoderPositionWalksUpward :
    (∃ t, exec (.decPut 0xFF) mid = .next t) ∧ (∀ n, Instr.decPut 0xFF ≠ .decStart n) ∧ Instr.decPut 0xFF ≠ .rst ∧
      mid.dec.pos ≤ mid.dec.nbits := ⟨exists_next (by decide +kernel), by simp, by decide, by decide⟩

/-- `mid` with ENC_END presented. -/
theorem midEnd_inv : StateInv (mid.setCommands [0x300000000]) :=
  { mid_inv with ports_fit := ⟨by decide, by intro r h; cases h⟩ }

theorem witness_EveryStepKeepsTheInvariant :
    StateInv (mid.setCommands [0x300000000]) ∧ ∃ t, step (mid.setCommands [0x300000000]) = .next t :=
  ⟨midEnd_inv, exists_next (by decide)⟩
theorem witness_ResetHoldsZeroEverywhere : (⟨9, i1⟩ : Params).wf ∧ State.reset.params.wf := by decide
theorem witness_CommandsOfOneUnitIgnoreTheOther :
    let s' := mid.setDec Decoder.reset
    let s'' := mid.setEnc Encoder.reset
    mid.params = s'.params ∧ (Instr.encEnd).unit? = some .enc ∧ mid.enc = s'.enc ∧
      (∃ t, exec .encEnd mid = .next t) ∧ mid.params = s''.params ∧ (Instr.decEnd).unit? = some .dec ∧
      mid.dec = s''.dec ∧ ∃ t, exec .decEnd mid = .next t :=
  ⟨rfl, rfl, rfl, exists_next (by decide), rfl, rfl, rfl, exists_next (by decide)⟩
theorem witness_InterleavedSessionsRunAsIfAlone :
    (Instr.encEnd).unit? = some .enc ∧
      ∃ t, execAll ([.encStart, .decStart 6, .encPut 0x63, .rdreg 3, .decPut 0xC8] ++ [.encEnd]) (start i1) = .next t :=
  ⟨rfl, exists_next (by decide +kernel)⟩
theorem witness_SessionsForgetWhatCameBefore :
    mid.params = (start i1).params ∧ (∀ i ∈ [Instr.encPut 0x61, .encEnd], i.unit? = some .enc) ∧
      (∃ t, execAll [.encStart, .encPut 0x61, .encEnd] mid = .next t) ∧ 1 < 2 ^ mid.params.cntw ∧
      (∀ i ∈ [Instr.decPut 0x00, .decEnd], i.unit? = some .dec) ∧
      ∃ t, execAll [.decStart 1, .decPut 0x00, .decEnd] mid = .next t :=
  ⟨rfl, by decide, exists_next (by decide), by decide, by decide, exists_next (by decide +kernel)⟩
theorem witness_PackingIsMostSignificantBitFirst :
    0 < (pack [true, true, true]).length ∧ 7 < 8 ∧ 15 < 16 ∧ 15 < 8 * [(0x4C : Byte), 0x9C].length := by decide
theorem witness_EncodeSessionClosedForm :
    codeStream mid.params.rom [0x63, 0x61] = .ok [true, true, false, false] ∧
      [true, true, false, false].length ≤ 2 ^ mid.params.cntw - 1 := by decide
theorem witness_EncodeSessionAgreesWithEncode :
    encodeBatch mid.params.rom [0x63, 0x61] = .ok ⟨[0xC0], 4⟩ ∧ 4 ≤ 2 ^ mid.params.cntw - 1 ∧
      encodeBatch mid.params.rom [] = .ok ⟨[], 0⟩ ∧ encodeBatch mid.params.rom [0x61, 0x65] = .error 0x65 ∧
      codeStream mid.params.rom [0x61] = .ok [false] ∧ encodeBatch mid.params.rom [0x65, 0x65] = .error 0x65 := by decide +kernel
theorem witness_DecodeSessionAgreesWithDecode :
    Distinct i3 ∧ 9 < 2 ^ (start i3).params.cntw ∧ decodeBatch i3 [0x1B] 6 = .ok (ascii "abc") ∧
      decodeBatch i3 [0x1B, 0x00] 9 = .error .malformed ∧ decodeBatch i3 [0x1B] 8 = .error .truncated := by
  decide +kernel
theorem witness_ShortestMatchIsTheSmallestLength :
    shortestMatch i4 [false, true] = some (0x61, 1) ∧ 1 ≤ 1 ∧ 1 ≤ min [false, true].length (maxLen i4) ∧
      shortestMatch i1 [true, true] = none := by decide
theorem witness_GreedyScanRecoversTheSymbols :
    PrefixFree i1 ∧ codeStream i1 [0x62, 0x61] = .ok [true, false, false] ∧
      ∀ s, Present i1 s → ¬ romCode i1 s <+: [true, true] :=
  ⟨i1_prefixFree, by decide, fun s hs => (by decide : ∀ s ∈ presentSyms i1, ¬ romCode i1 s <+: [true, true]) s
    ((mem_presentSyms i1 s).2 hs)⟩
theorem witness_DecodeOfEncodeIsTheInput : PrefixFree i1 ∧ Covers i1 (ascii "abacabad") :=
  ⟨i1_prefixFree, by decide +kernel⟩
theorem witness_RoundTripThroughTheBlock :
    (start i1).params.rom = genImage (ascii "abacabad") ∧
      codeStream (start i1).params.rom (ascii "abacabad") =
        .ok [false, true, false, false, true, true, false, false, true, false, false, true, true, true] ∧
      14 ≤ 2 ^ (start i1).params.cntw - 1 := by decide +kernel
theorem witness_FullTablesNeverMalformed :
    StateInv mid ∧ PrefixFree mid.params.rom ∧ KraftFull mid.params.rom ∧ ∃ t, exec (.decPut 0xFF) mid = .next t :=
  ⟨mid_inv, i1_prefixFree, by decide +kernel, exists_next (by decide +kernel)⟩
theorem witness_HuffmanTreeHasALeafPerSymbol : ascii "a" ≠ [] := by decide
theorem witness_GeneratedImagesArePrefixFreeAndCover : 2 ≤ (ascii "ab").dedup.length := by decide

end Sys2Proof.Tests
end

