-- ==== Sys2Proof/Proofs/Step.lean ====
section
/-! The command port and the step: one equation per case of `nextWord` and of `step`, and the statements about the
step's dispatch. Later proofs cite these equations instead of unfolding `step`. -/

namespace Sys2Proof.Machine

/-! ## The port -/

theorem nextWord_of_nil {s : State} (h : s.commands = []) : nextWord s = none := by
  rw [nextWord, h]

theorem nextWord_of_cons {s : State} {w : Nat} {ws : List Nat} (h : s.commands = w :: ws) :
    nextWord s = some (w, ws) := by
  rw [nextWord, h]

/-! ## The step -/

theorem step_of_nil {s : State} (h : s.commands = []) : step s = .next s := by
  rw [step, nextWord_of_nil h]

theorem step_of_decode_ok {s : State} {w : Nat} {ws : List Nat} {i : Instr} (h : s.commands = w :: ws)
    (hd : decode s.params.cntw w = .ok i) : step s = exec i (s.setCommands ws) := by
  simp only [step, nextWord_of_cons h, hd]

theorem step_of_decode_error {s : State} {w : Nat} {ws : List Nat} {e : IllegalWord} (h : s.commands = w :: ws)
    (hd : decode s.params.cntw w = .error e) : step s = rejectWord e (s.setCommands ws) := by
  simp only [step, nextWord_of_cons h, hd]

/-! ## The statements -/

/-- Settles O6: the port hands over the head of the list, and the decoder accepts it. -/
theorem stepRunsTheDecodedCommand : Obligations.StepRunsTheDecodedCommand :=
  fun _ _ _ _ hcommands hdecode => step_of_decode_ok hcommands hdecode

/-- Settles O7: with no word presented the port hands over nothing. -/
theorem stepWaitsForACommand : Obligations.StepWaitsForACommand :=
  fun _ hcommands => step_of_nil hcommands

end Sys2Proof.Machine
end

