-- ==== Sys2Proof/Proofs/Effect.lean ====
section
/-! What a completed command can do to the block, said once: the moves of unit ENC, the moves of unit DEC, what no
command writes, and the value every response carries. The statements about all commands are case splits on the moves. -/

namespace Sys2Proof.Machine

/-- The moves of unit ENC, on a block with parameters `p` (R116 to R118, R151, R166): from `e`, command `i` can
leave the unit in the state of the last argument. -/
inductive EncMove (p : Params) (e : Encoder) : Instr → Encoder → Prop where
  | keep (i : Instr) : EncMove p e i e
  | start : EncMove p e .encStart openEncoder
  | absent (b : Byte) (active : e.flags.phase = .active) :
      EncMove p e (.encPut b) (e.setFlags (errorFlags .byteNotInTable b.toNat))
  | overflow (b : Byte) (active : e.flags.phase = .active) :
      EncMove p e (.encPut b) (e.setFlags (errorFlags .countOverflow b.toNat))
  | append (b : Byte) (c : Bits) (active : e.flags.phase = .active) (code : romLookup p.rom b = some c)
      (fits : e.nbits + c.length ≤ 2 ^ p.cntw - 1) : EncMove p e (.encPut b) (appendCode e c)
  | finish (active : e.flags.phase = .active) :
      EncMove p e .encEnd ((flushAcc e).setFlags (doneFlags e.flags))
  | reset : EncMove p e .rst Encoder.reset

/-- The moves of unit DEC (R131 to R134, R151, R166). -/
inductive DecMove (p : Params) (d : Decoder) : Instr → Decoder → Prop where
  | keep (i : Instr) : DecMove p d i d
  | start (n : Nat) (fits : n < 2 ^ p.cntw) : DecMove p d (.decStart n) (openDecoder n)
  | take (b : Byte) (d' : Decoder) (active : d.flags.phase = .active)
      (taken : decBits p.rom d (byteBits b) = .ok d') : DecMove p d (.decPut b) d'
  | malformed (b : Byte) (d' : Decoder) (active : d.flags.phase = .active)
      (taken : decBits p.rom d (byteBits b) = .malformed d') :
      DecMove p d (.decPut b) (d'.setFlags (errorFlags .malformed (d'.pos - d'.plen)))
  | truncated (active : d.flags.phase = .active) :
      DecMove p d .decEnd (d.setFlags (errorFlags .truncated (d.pos - d.plen)))
  | finish (active : d.flags.phase = .active) (exhausted : d.nbits ≤ d.pos) (nonePending : d.plen = 0) :
      DecMove p d .decEnd (d.setFlags (doneFlags d.flags))
  | reset : DecMove p d .rst Decoder.reset

/-- What command `i` does when it takes the block from `s` to `t`: a move of each unit, the parameters and the words to
come as they were (R108), and one response, whose value is 0 or what RDREG would read in `t` (R65). -/
structure Effect (i : Instr) (s t : State) : Prop where
  params   : t.params = s.params
  commands : t.commands = s.commands
  enc      : EncMove s.params s.enc i t.enc
  dec      : DecMove s.params s.dec i t.dec
  resp     : ∃ r, t.resp = some r ∧ (r.value = 0 ∨ ∃ q, r.value = readStatusReg q t)

@[simp] theorem readStatusReg_setResp (q : StatusReg) (s : State) (r : Response) :
    readStatusReg q (s.setResp r) = readStatusReg q s := by cases q <;> rfl

/-- An answer of value 0, both units as they were: an illegal command (R166). -/
theorem Effect.answer_zero (i : Instr) (s : State) (st : Status) : Effect i s (s.setResp ⟨st, 0⟩) :=
  ⟨rfl, rfl, .keep i, .keep i, _, rfl, .inl rfl⟩

/-- Every command that completes has an effect of this form. -/
theorem exec_effect {i : Instr} {s t : State} (h : exec i s = .next t) : Effect i s t := by
  cases i with
  | encStart =>
    obtain rfl := (execEncStart_next s t).1 h
    exact ⟨rfl, rfl, .start, .keep _, _, rfl, .inl rfl⟩
  | encPut b =>
    obtain ⟨-, rfl⟩ | ⟨hp, -, rfl⟩ | ⟨c, hp, -, -, rfl⟩ | ⟨c, hp, hc, hfit, rfl⟩ := execEncPut_next h
    · exact .answer_zero _ s _
    · exact ⟨rfl, rfl, .absent b hp, .keep _, _, rfl, .inr ⟨.encEinfo, rfl⟩⟩
    · exact ⟨rfl, rfl, .overflow b hp, .keep _, _, rfl, .inr ⟨.encEinfo, rfl⟩⟩
    · exact ⟨rfl, rfl, .append b c hp hc hfit, .keep _, _, rfl, .inr ⟨.encNbits, rfl⟩⟩
  | encEnd =>
    obtain ⟨-, rfl⟩ | ⟨hp, rfl⟩ := execEncEnd_next h
    · exact .answer_zero _ s _
    · refine ⟨rfl, rfl, .finish hp, .keep _, _, rfl, ?_⟩
      by_cases hn : s.enc.nbits = 0
      · exact .inl (by simp [hn])
      · exact .inr ⟨.encNbits, by simp [hn, readStatusReg, flushAcc]⟩
  | decStart n =>
    obtain ⟨-, rfl⟩ | ⟨hn, -, rfl⟩ := execDecStart_next h
    · exact .answer_zero _ s _
    · exact ⟨rfl, rfl, .keep _, .start n hn, _, rfl, .inl rfl⟩
  | decPut b =>
    obtain ⟨-, rfl⟩ | ⟨d, hp, -, hd, rfl⟩ | ⟨d, hp, -, hd, rfl⟩ := execDecPut_next h
    · exact .answer_zero _ s _
    · exact ⟨rfl, rfl, .keep _, .take b d hp hd, _, rfl, .inr ⟨.decNout, rfl⟩⟩
    · exact ⟨rfl, rfl, .keep _, .malformed b d hp hd, _, rfl, .inr ⟨.decEinfo, rfl⟩⟩
  | decEnd =>
    obtain ⟨-, rfl⟩ | ⟨hp, -, -, rfl⟩ | ⟨hp, -, hpos, hplen, rfl⟩ := execDecEnd_next h
    · exact .answer_zero _ s _
    · exact ⟨rfl, rfl, .keep _, .truncated hp, _, rfl, .inr ⟨.decEinfo, rfl⟩⟩
    · exact ⟨rfl, rfl, .keep _, .finish hp hpos hplen, _, rfl, .inr ⟨.decNout, rfl⟩⟩
  | rdreg r =>
    obtain ⟨-, rfl⟩ | ⟨q, -, rfl⟩ := execRdreg_next h
    · exact .answer_zero _ s _
    · exact ⟨rfl, rfl, .keep _, .keep _, _, rfl, .inr ⟨q, by simp⟩⟩
  | rst =>
    obtain rfl := (execRst_next s t).1 h
    exact ⟨rfl, rfl, .reset, .reset, _, rfl, .inl rfl⟩

end Sys2Proof.Machine
end

