-- ==== Sys2Proof/Proofs/Taking.lean ====
section
/-! Taking valid bits: what one bit and the bits of a byte do to unit DEC (R132, R133), and that they keep its
invariant (R27). -/

namespace Sys2Proof.Machine

theorem Taking.unit?_of_ok {k : Taking} {d : Decoder} (h : k = .ok d) : k.unit? = some d := by
  rw [h, Taking.unit?]

theorem Taking.unit?_of_malformed {k : Taking} {d : Decoder} (h : k = .malformed d) : k.unit? = some d := by
  rw [h, Taking.unit?]

/-- The unit after one valid bit: as it was when `MAXLEN` bits are pending, or one bit on, pending still or matched. -/
theorem decBit_unit {img : Image} {d d' : Decoder} {b : Bool} (h : (decBit img d b).unit? = some d') :
    d' = d ∨
    (d.plen ≠ maxLen img ∧ romMatch img (d.plen + 1) (d.pfx ++ [b]) = .none ∧
      d' = { d with pfx := d.pfx ++ [b], pos := d.pos + 1 }) ∨
    (∃ s, d' = { d with pfx := [], pos := d.pos + 1, nout := d.nout + 1, out := d.out ++ [s] }) := by
  obtain ⟨-, hd⟩ | ⟨hlen, hm, hd⟩ | ⟨s, -, -, hd⟩ | ⟨-, -, hd⟩ := decBit_cases img d b <;> rw [hd] at h
  · exact .inl (Option.some.inj h).symm
  · exact .inr (.inl ⟨hlen, hm, (Option.some.inj h).symm⟩)
  · exact .inr (.inr ⟨s, (Option.some.inj h).symm⟩)
  · cases h

/-! ## How far the unit moves -/

/-- `d'` lies on the way of `d` through its session (R18, R22, R24): same flags and region, no bit given back, the
stream extended, the region not left. -/
structure Decoder.Onward (d d' : Decoder) : Prop where
  flags  : d'.flags = d.flags
  nbits  : d'.nbits = d.nbits
  pos_le : d.pos ≤ d'.pos
  inside : d.pos ≤ d.nbits → d'.pos ≤ d'.nbits
  out    : d.out <+: d'.out

theorem Decoder.Onward.refl (d : Decoder) : d.Onward d := ⟨rfl, rfl, le_rfl, id, List.prefix_rfl⟩

theorem Decoder.Onward.trans {d d' d'' : Decoder} (h : d.Onward d') (h' : d'.Onward d'') : d.Onward d'' where
  flags := h'.flags.trans h.flags
  nbits := h'.nbits.trans h.nbits
  pos_le := h.pos_le.trans h'.pos_le
  inside hd := h'.inside (h.nbits ▸ h.inside hd)
  out := h.out.trans h'.out

theorem decBit_onward {img : Image} {d d' : Decoder} {b : Bool} (hpos : d.pos < d.nbits)
    (h : (decBit img d b).unit? = some d') : d.Onward d' := by
  obtain rfl | ⟨-, -, rfl⟩ | ⟨s, rfl⟩ := decBit_unit h
  · exact .refl d'
  · exact ⟨rfl, rfl, Nat.le_succ _, fun _ => hpos, List.prefix_rfl⟩
  · exact ⟨rfl, rfl, Nat.le_succ _, fun _ => hpos, List.prefix_append _ _⟩

theorem decBits_onward {img : Image} {d d' : Decoder} {bs : Bits} (h : (decBits img d bs).unit? = some d') :
    d.Onward d' :=
  decBits_keeps img d.Onward (fun _ _ _ hd hpos hb => hd.trans (decBit_onward hpos hb)) d d' bs (.refl d) h

theorem decBit_pos_le {img : Image} {d d' : Decoder} {b : Bool} (h : (decBit img d b).unit? = some d') :
    d'.pos ≤ d.pos + 1 := by
  obtain rfl | ⟨-, -, rfl⟩ | ⟨s, rfl⟩ := decBit_unit h
  · exact Nat.le_succ _
  · exact le_rfl
  · exact le_rfl

/-- The loop takes at most the bits it is given (R46). -/
theorem decBits_pos_le {img : Image} {d d' : Decoder} {bs : Bits} (h : (decBits img d bs).unit? = some d') :
    d'.pos ≤ d.pos + bs.length := by
  induction bs generalizing d with
  | nil =>
    obtain rfl : d = d' := Option.some.inj h
    exact Nat.le_add_right _ _
  | cons b bs ih =>
    rw [decBits] at h
    rw [List.length_cons]
    split at h
    · rcases hdb : decBit img d b with d1 | d1 | _ <;> rw [hdb] at h
      · have hbit := decBit_pos_le (Taking.unit?_of_ok hdb)
        have hrest := ih h
        omega
      · obtain rfl : d1 = d' := Option.some.inj h
        have hbit := decBit_pos_le (Taking.unit?_of_malformed hdb)
        omega
      · cases h
    · have hrest := ih h
      omega

/-! ## The invariant -/

/-- R104: when nothing matches, no code is the string looked up. -/
theorem romCode_ne_of_romMatch_none {img : Image} {p : Bits} (h : romMatch img p.length p = .none) (s : Byte)
    (hs : Present img s) : romCode img s ≠ p := by
  rintro rfl
  have hmem : s ∈ romCandidates img (romCode img s).length (romCode img s) :=
    (mem_romCandidates ..).2 ⟨hs, (romCode_length img s).symm, rfl⟩
  unfold romMatch at h
  split at h
  · rename_i hnil
    rw [hnil] at hmem
    cases hmem
  · cases h
  · cases h

/-- R27 (i) is kept by a bit after which nothing matches. -/
theorem no_match_append {img : Image} {pfx : Bits} {b : Bool}
    (h : ∀ p, p ≠ [] → p <+: pfx → ∀ s, Present img s → romCode img s ≠ p)
    (hm : romMatch img (pfx ++ [b]).length (pfx ++ [b]) = .none) (p : Bits) (hp : p ≠ []) (hpre : p <+: pfx ++ [b])
    (s : Byte) (hs : Present img s) : romCode img s ≠ p := by
  rcases List.prefix_concat_iff.1 hpre with rfl | hpre
  · exact romCode_ne_of_romMatch_none hm s hs
  · exact h p hp hpre s hs

/-- An open DEC session in which R27 holds: what one valid bit keeps. -/
structure DecoderOpen (img : Image) (d : Decoder) : Prop where
  active : d.flags.phase = .active
  inv    : DecoderInv img d

theorem decBit_keeps_open {img : Image} {d d' : Decoder} {b : Bool} (h : DecoderOpen img d) (hpos : d.pos < d.nbits)
    (hb : (decBit img d b).unit? = some d') : DecoderOpen img d' := by
  obtain ⟨active, inv⟩ := h
  obtain rfl | ⟨hlen, hm, rfl⟩ | ⟨s, rfl⟩ := decBit_unit hb
  · exact ⟨active, inv⟩
  · have hmax := inv.plen_le_max
    have hplen : (d.pfx ++ [b]).length = d.plen + 1 := by simp [Decoder.plen]
    refine ⟨active, { inv with
      pos_le := hpos
      plen_le_max := ?_
      plen_le_pos := ?_
      nout_le := Nat.le_succ_of_le inv.nout_le
      no_match := fun _ => no_match_append (inv.no_match active) (hplen.symm ▸ hm)
      done_exact := fun hd => absurd (active.symm.trans hd) (by decide)
      idle_reset := fun hd => absurd (active.symm.trans hd) (by decide) }⟩
    · show (d.pfx ++ [b]).length ≤ maxLen img
      omega
    · show (d.pfx ++ [b]).length ≤ d.pos + 1
      rw [hplen]
      exact Nat.succ_le_succ inv.plen_le_pos
  · exact ⟨active, { inv with
      pos_le := hpos
      plen_le_max := Nat.zero_le _
      plen_le_pos := Nat.zero_le _
      nout_eq := by simp [inv.nout_eq]
      nout_le := Nat.succ_le_succ inv.nout_le
      no_match := fun _ p hp hpre => absurd (List.prefix_nil.1 hpre) hp
      done_exact := fun hd => absurd (active.symm.trans hd) (by decide)
      idle_reset := fun hd => absurd (active.symm.trans hd) (by decide) }⟩

theorem decBits_keeps_open {img : Image} {d d' : Decoder} {bs : Bits} (h : DecoderOpen img d)
    (hb : (decBits img d bs).unit? = some d') : DecoderOpen img d' :=
  decBits_keeps img (DecoderOpen img) (fun _ _ _ => decBit_keeps_open) d d' bs h hb

end Sys2Proof.Machine
end

