-- ==== Sys2Proof/Proofs/Invariant.lean ====
section
/-! The invariant of R27 with the widths of 10_state.md: it holds after reset, every move of either unit keeps it, and
so every step does. -/

namespace Sys2Proof.Machine

theorem byte_lt_two_pow {cntw : Nat} (h : Config.cntwMin ≤ cntw) (b : Byte) : b.toNat < 2 ^ cntw :=
  Laws.DataFits.small_lt h (b.isLt.trans (by decide))

/-! ## Unit ENC -/

theorem EncoderFits.setFlags {cntw : Nat} {e : Encoder} (h : EncoderFits cntw e) {f : UnitFlags}
    (hf : f.einfo < 2 ^ cntw) : EncoderFits cntw (e.setFlags f) :=
  ⟨hf, h.nbits_lt, h.nsym_lt⟩

theorem EncoderFits.reset (cntw : Nat) : EncoderFits cntw Encoder.reset :=
  ⟨Nat.two_pow_pos _, Nat.two_pow_pos _, Nat.two_pow_pos _⟩

/-- R28: after reset nothing is counted and no session is open. -/
theorem EncoderInv.reset : EncoderInv Encoder.reset where
  nacc_open := by decide
  nacc_closed := by decide
  acc_high := by decide
  out_open := by decide
  out_done := by decide
  nsym_le := by decide
  err_iff := by decide
  einfo_zero := by decide
  err_kind := fun _ hk => by cases hk
  idle_reset := fun _ => rfl

theorem EncoderInv.openEncoder : EncoderInv openEncoder where
  nacc_open := by decide
  nacc_closed := by decide
  acc_high := by decide
  out_open := by decide
  out_done := by decide
  nsym_le := by decide
  err_iff := by decide
  einfo_zero := by decide
  err_kind := fun _ hk => by cases hk
  idle_reset := by decide

/-- Error entry freezes an open session, and the values frozen are as R27 says. -/
theorem EncoderInv.error_entry {e : Encoder} (h : EncoderInv e) (active : e.flags.phase = .active) {k : ErrorKind}
    (hk : k = .byteNotInTable ∨ k = .countOverflow) (n : Nat) : EncoderInv (e.setFlags (errorFlags k n)) where
  nacc_open _ := h.nacc_open (.inl active)
  nacc_closed := by simp
  acc_high := h.acc_high
  out_open _ := h.out_open (.inl active)
  out_done := by simp
  nsym_le := h.nsym_le
  err_iff := by simp
  einfo_zero := by simp
  err_kind := by simp [hk]
  idle_reset := by simp

@[simp] theorem appendCode_flags (e : Encoder) (c : Bits) : (appendCode e c).flags = e.flags := pushBits_flags e c
@[simp] theorem appendCode_nbits (e : Encoder) (c : Bits) : (appendCode e c).nbits = e.nbits + c.length := rfl
@[simp] theorem appendCode_nsym (e : Encoder) (c : Bits) : (appendCode e c).nsym = e.nsym + 1 := rfl
@[simp] theorem appendCode_nacc (e : Encoder) (c : Bits) :
    (appendCode e c).nacc.val = (e.nacc.val + c.length) % 8 := (pushBits_count e c).1

/-- Full bytes are appended to the stream (R117, R46). -/
theorem appendCode_out (e : Encoder) (c : Bits) :
    ∃ bs, (appendCode e c).out = e.out ++ bs ∧ bs.length = (e.nacc.val + c.length) / 8 := (pushBits_count e c).2

/-- A code of at least one bit keeps R27: `NACC` is the count modulo 8, the stream its quotient. -/
theorem EncoderInv.appendCode {e : Encoder} (h : EncoderInv e) (active : e.flags.phase = .active) {c : Bits}
    (hc : 1 ≤ c.length) : EncoderInv (appendCode e c) where
  nacc_open _ := by
    rw [appendCode_nacc, appendCode_nbits, h.nacc_open (.inl active)]
    omega
  nacc_closed := by simp [active]
  acc_high := pushBits_acc_high e c h.acc_high
  out_open _ := by
    obtain ⟨bs, hout, hlen⟩ := appendCode_out e c
    rw [hout, List.length_append, hlen, h.out_open (.inl active), h.nacc_open (.inl active), appendCode_nbits]
    omega
  out_done := by simp [active]
  nsym_le := by
    have := h.nsym_le
    simp only [appendCode_nsym, appendCode_nbits]
    omega
  err_iff := by simpa using h.err_iff
  einfo_zero := by simpa using h.einfo_zero
  err_kind := by simpa using h.err_kind
  idle_reset := by simp [active]

theorem EncoderFits.appendCode {cntw : Nat} {e : Encoder} (h : EncoderFits cntw e) (hi : EncoderInv e) {c : Bits}
    (hc : 1 ≤ c.length) (hfit : e.nbits + c.length ≤ 2 ^ cntw - 1) : EncoderFits cntw (appendCode e c) := by
  have hpos := Nat.two_pow_pos cntw
  have hnsym := hi.nsym_le
  refine ⟨by simpa using h.einfo_lt, ?_, ?_⟩ <;> simp only [appendCode_nbits, appendCode_nsym] <;> omega

/-- ENC_END emits the pending bits, if any, as one byte (R118). -/
theorem flushAcc_out (e : Encoder) :
    ∃ bs, (flushAcc e).out = e.out ++ bs ∧ bs.length = (e.nacc.val + 7) / 8 := by
  unfold flushAcc
  by_cases h0 : e.nacc = 0
  · exact ⟨[], by simp [h0], by simp [h0]⟩
  · have hlt := e.nacc.isLt
    have hne : e.nacc.val ≠ 0 := fun h => h0 (Fin.ext h)
    exact ⟨_, by simp only [h0, if_false, emit]; rfl, by rw [List.length_singleton]; omega⟩

/-- ENC_END of an open session keeps R27. -/
theorem EncoderInv.finish {e : Encoder} (h : EncoderInv e) (active : e.flags.phase = .active) :
    EncoderInv ((flushAcc e).setFlags (doneFlags e.flags)) where
  nacc_open := by simp
  nacc_closed _ := rfl
  acc_high := Nat.one_pos
  out_open := by simp
  out_done _ := by
    obtain ⟨bs, hout, hlen⟩ := flushAcc_out e
    rw [Encoder.setFlags_out, hout, List.length_append, hlen, h.out_open (.inl active), h.nacc_open (.inl active)]
    show _ = (e.nbits + 7) / 8
    omega
  nsym_le := h.nsym_le
  err_iff := by simp [h.err_iff, active]
  einfo_zero _ := h.einfo_zero (by simp [active])
  err_kind := h.err_kind
  idle_reset := by simp

/-- Every move of ENC keeps what R27 says of the unit. -/
theorem EncMove.inv {p : Params} {e e' : Encoder} {i : Instr} (m : EncMove p e i e') (h : EncoderInv e) :
    EncoderInv e' := by
  cases m with
  | keep => exact h
  | start => exact .openEncoder
  | absent b active => exact h.error_entry active (.inl rfl) _
  | overflow b active => exact h.error_entry active (.inr rfl) _
  | append b c active code _ => exact h.appendCode active (romLookup_length code).1
  | finish active => exact h.finish active
  | reset => exact .reset

/-- Every move of ENC keeps the widths of the unit's registers. -/
theorem EncMove.fits {p : Params} {e e' : Encoder} {i : Instr} (m : EncMove p e i e')
    (hw : Config.cntwMin ≤ p.cntw) (h : EncoderFits p.cntw e) (hi : EncoderInv e) : EncoderFits p.cntw e' := by
  cases m with
  | keep => exact h
  | start => exact (EncoderFits.reset _).setFlags (Nat.two_pow_pos _)
  | absent b _ => exact h.setFlags (byte_lt_two_pow hw b)
  | overflow b _ => exact h.setFlags (byte_lt_two_pow hw b)
  | append b c _ code fits => exact h.appendCode hi (romLookup_length code).1 fits
  | finish _ => exact ⟨h.einfo_lt, h.nbits_lt, h.nsym_lt⟩
  | reset => exact .reset _

/-! ## Unit DEC -/

/-- The widths of DEC follow from R27 and the width of `NBITS` and `EINFO` (R18 to R20). -/
theorem DecoderInv.fits {img : Image} {d : Decoder} (h : DecoderInv img d) {cntw : Nat}
    (hinfo : d.flags.einfo < 2 ^ cntw) (hnbits : d.nbits < 2 ^ cntw) : DecoderFits cntw d where
  einfo_lt := hinfo
  nbits_lt := hnbits
  pos_lt := h.pos_le.trans_lt hnbits
  nout_lt := h.nout_le.trans_lt (h.pos_le.trans_lt hnbits)
  pfx_le := h.plen_le_max.trans (maxLen_le img)

/-- The start of the pending bits, which `EINFO` reports on an error (R133, R134), fits the register. -/
theorem DecoderInv.pendingStart_lt {img : Image} {d : Decoder} (h : DecoderInv img d) {cntw : Nat}
    (hnbits : d.nbits < 2 ^ cntw) : d.pos - d.plen < 2 ^ cntw :=
  ((Nat.sub_le _ _).trans h.pos_le).trans_lt hnbits

/-- R28: after reset nothing is counted and no session is open. -/
theorem DecoderInv.reset (img : Image) : DecoderInv img Decoder.reset where
  pos_le := le_rfl
  plen_le_max := Nat.zero_le _
  plen_le_pos := le_rfl
  nout_eq := rfl
  nout_le := le_rfl
  err_iff := by decide
  no_match := fun hp => by cases hp
  einfo_zero := fun _ => rfl
  err_kind := fun _ hk => by cases hk
  done_exact := fun hp => by cases hp
  idle_reset := fun _ => rfl

theorem DecoderInv.openDecoder (img : Image) (n : Nat) : DecoderInv img (openDecoder n) where
  pos_le := Nat.zero_le _
  plen_le_max := Nat.zero_le _
  plen_le_pos := le_rfl
  nout_eq := rfl
  nout_le := le_rfl
  err_iff := ⟨fun _ => Phase.noConfusion, fun _ => rfl⟩
  no_match := fun _ p hp hpre => absurd (List.prefix_nil.1 hpre) hp
  einfo_zero := fun _ => rfl
  err_kind := fun _ hk => by cases hk
  done_exact := fun hp => by cases hp
  idle_reset := fun hp => by cases hp

/-- Error entry freezes an open session, and the values frozen are as R27 says. -/
theorem DecoderInv.error_entry {img : Image} {d : Decoder} (h : DecoderInv img d) {k : ErrorKind}
    (hk : k = .truncated ∨ k = .malformed) (n : Nat) : DecoderInv img (d.setFlags (errorFlags k n)) :=
  { h with
    err_iff := by simp
    no_match := by simp
    einfo_zero := by simp
    err_kind := by simp [hk]
    done_exact := by simp
    idle_reset := by simp }

/-- DEC_END of an exhausted session keeps R27. -/
theorem DecoderInv.finish {img : Image} {d : Decoder} (h : DecoderInv img d) (active : d.flags.phase = .active)
    (exhausted : d.nbits ≤ d.pos) (nonePending : d.plen = 0) :
    DecoderInv img (d.setFlags (doneFlags d.flags)) :=
  { h with
    err_iff := by simp [h.err_iff, active]
    no_match := by simp
    einfo_zero := fun _ => h.einfo_zero (by simp [active])
    err_kind := h.err_kind
    done_exact := fun _ => ⟨le_antisymm h.pos_le exhausted, List.length_eq_zero_iff.1 nonePending⟩
    idle_reset := by simp }

/-- Every move of DEC keeps what R27 says of the unit. -/
theorem DecMove.inv {p : Params} {d d' : Decoder} {i : Instr} (m : DecMove p d i d') (h : DecoderInv p.rom d) :
    DecoderInv p.rom d' := by
  cases m with
  | keep => exact h
  | start n _ => exact .openDecoder _ n
  | take b d' active taken => exact (decBits_keeps_open ⟨active, h⟩ (Taking.unit?_of_ok taken)).inv
  | malformed b d' active taken =>
    exact (decBits_keeps_open ⟨active, h⟩ (Taking.unit?_of_malformed taken)).inv.error_entry (.inr rfl) _
  | truncated _ => exact h.error_entry (.inl rfl) _
  | finish active exhausted nonePending => exact h.finish active exhausted nonePending
  | reset => exact .reset _

/-- Every move of DEC keeps the widths of the unit's registers. -/
theorem DecMove.fits {p : Params} {d d' : Decoder} {i : Instr} (m : DecMove p d i d')
    (h : DecoderFits p.cntw d) (hi : DecoderInv p.rom d) : DecoderFits p.cntw d' := by
  have hinv := m.inv hi
  have hnbits := h.nbits_lt
  cases m with
  | keep => exact h
  | start n fits => exact hinv.fits (Nat.two_pow_pos _) fits
  | take b d' active taken =>
    have on := decBits_onward (Taking.unit?_of_ok taken)
    exact hinv.fits (on.flags ▸ h.einfo_lt) (on.nbits ▸ hnbits)
  | malformed b d' active taken =>
    have on := decBits_onward (Taking.unit?_of_malformed taken)
    exact hinv.fits (hinv.pendingStart_lt (on.nbits ▸ hnbits)) (on.nbits ▸ hnbits)
  | truncated _ => exact hinv.fits (hi.pendingStart_lt hnbits) hnbits
  | finish _ _ _ => exact hinv.fits h.einfo_lt hnbits
  | reset => exact hinv.fits (Nat.two_pow_pos _) (Nat.two_pow_pos _)

/-! ## The response port -/

theorem Phase.code_lt (p : Phase) : p.code < 512 := by cases p <;> decide

theorem errCode_lt (e : Option ErrorKind) : errCode e < 512 := by
  rcases e with _ | k
  · decide
  · cases k <;> decide

/-- R106: `NCODES` counts symbols, of which there are 256. -/
theorem nCodes_le (img : Image) : nCodes img ≤ 256 := by
  calc nCodes img ≤ Fintype.card Byte := (presentSyms_nodup img).length_le_card
    _ = Fintype.card (Fin (2 ^ 8)) := Fintype.card_congr BitVec.equivFin.toEquiv
    _ = 256 := Fintype.card_fin _

/-- Every status register fits `CNTW` bits (R23, R25). -/
theorem readStatusReg_lt {s : State} (hw : Config.cntwMin ≤ s.params.cntw) (he : EncoderFits s.params.cntw s.enc)
    (hd : DecoderFits s.params.cntw s.dec) (q : StatusReg) : readStatusReg q s < 2 ^ s.params.cntw := by
  have small : ∀ {n}, n < 512 → n < 2 ^ s.params.cntw := Laws.DataFits.small_lt hw
  cases q with
  | encPhase => exact small (Phase.code_lt _)
  | encErr => exact small (errCode_lt _)
  | encEinfo => exact he.einfo_lt
  | encNbits => exact he.nbits_lt
  | encNsym => exact he.nsym_lt
  | encNacc => exact small (s.enc.nacc.isLt.trans (by decide))
  | encAcc => exact byte_lt_two_pow hw _
  | decPhase => exact small (Phase.code_lt _)
  | decErr => exact small (errCode_lt _)
  | decEinfo => exact hd.einfo_lt
  | decNbits => exact hd.nbits_lt
  | decPos => exact hd.pos_lt
  | decPlen => exact small (hd.pfx_le.trans_lt (by decide))
  | decNout => exact hd.nout_lt
  | tblMaxlen => exact small ((maxLen_le _).trans_lt (by decide))
  | tblNcodes => exact small ((nCodes_le _).trans_lt (by decide))

/-! ## The block -/

/-- Every completed command keeps the invariant. -/
theorem Effect.inv {i : Instr} {s t : State} (m : Effect i s t) (h : StateInv s) : StateInv t := by
  obtain ⟨hparams, hcommands, henc, hdec, r, hr, hvalue⟩ := m
  have hfe := henc.fits h.params_wf.1 h.enc_fits h.enc_inv
  have hfd := hdec.fits h.dec_fits h.dec_inv
  rw [← hparams] at hfe hfd
  have hw := hparams ▸ h.params_wf
  refine ⟨hw, hfe, hfd, henc.inv h.enc_inv, hparams ▸ hdec.inv h.dec_inv, ?_, ?_⟩
  · rw [hcommands, hparams]
    exact h.ports_fit.commands_lt
  · intro r' hr'
    obtain rfl : r = r' := Option.some.inj (hr.symm.trans hr')
    obtain h0 | ⟨q, hq⟩ := hvalue
    · rw [h0]
      exact Nat.two_pow_pos _
    · rw [hq]
      exact readStatusReg_lt hw.1 hfe hfd q

/-- Taking the next word off the port leaves the invariant. -/
theorem StateInv.setCommands {s : State} (h : StateInv s) {w : Nat} {ws : List Nat} (hc : s.commands = w :: ws) :
    StateInv (s.setCommands ws) :=
  { h with ports_fit := ⟨fun v hv => h.ports_fit.commands_lt v (hc ▸ List.mem_cons_of_mem w hv), h.ports_fit.resp_lt⟩ }

/-- An answer whose value fits leaves the invariant. -/
theorem StateInv.setResp {s : State} (h : StateInv s) {r : Response} (hr : r.value < 2 ^ s.params.cntw) :
    StateInv (s.setResp r) :=
  { h with ports_fit := ⟨h.ports_fit.commands_lt, fun _ hr' => Option.some.inj hr' ▸ hr⟩ }

/-- A word that is no command is answered as illegal, or stops the step (R63, log 7). -/
theorem rejectWord_next {e : IllegalWord} {s t : State} (h : rejectWord e s = .next t) :
    t = s.setResp ⟨.illegalCmd, 0⟩ := by
  cases e with
  | reservedOpcode => exact (illegalCommand_eq_next s t).1 h
  | mustBeZero => exact (illegalCommand_eq_next s t).1 h
  | reservedRegister => exact (illegalCommand_eq_next s t).1 h
  | notAWord => cases h

/-- Settles O37: the next word is taken, and what runs then is a command with an `Effect` or an illegal word. -/
theorem everyStepKeepsTheInvariant : Obligations.EveryStepKeepsTheInvariant := by
  intro s t h hstep
  rcases hc : s.commands with _ | ⟨w, ws⟩
  · rw [step_of_nil hc] at hstep
    cases hstep
    exact h
  · have h' := h.setCommands hc
    rcases hd : decode s.params.cntw w with e | i
    · rw [step_of_decode_error hc hd] at hstep
      obtain rfl := rejectWord_next hstep
      exact h'.setResp (Nat.two_pow_pos _)
    · rw [step_of_decode_ok hc hd] at hstep
      exact (exec_effect hstep).inv h'

/-- R28: power-on reset of any block with parameters as R5 asks has the invariant. -/
theorem StateInv.resetWith {p : Params} (hp : p.wf) : StateInv (State.resetWith p) where
  params_wf := hp
  enc_fits := .reset _
  dec_fits := (DecoderInv.reset p.rom).fits (Nat.two_pow_pos _) (Nat.two_pow_pos _)
  enc_inv := .reset
  dec_inv := .reset _
  ports_fit := ⟨List.forall_mem_nil _, fun _ hr => nomatch hr⟩

/-- Settles O38: every reset value is zero by definition, so each clause of R27 holds of nothing counted. -/
theorem resetHoldsZeroEverywhere : Obligations.ResetHoldsZeroEverywhere :=
  ⟨fun _ hp => .resetWith hp, fun _ => rfl, _, by decide, rfl⟩

end Sys2Proof.Machine
end

