-- ==== Sys2Proof/Proofs/Progress.lean ====
section
/-! Progress: on an image that satisfies `Distinct` every command completes (R107, R203), and every word of the port is
a command or an illegal word (R63), so from the invariant a step never stops. -/

namespace Sys2Proof.Machine

theorem withDistinct_of_distinct {s : State} (hd : Distinct s.params.rom) (r : Result) : withDistinct s r = r :=
  if_pos hd

theorem execEncPut_completes (b : Byte) (s : State) : ∃ t, execEncPut b s = .next t := by
  unfold execEncPut
  split
  · split
    · exact ⟨_, rfl⟩
    · split <;> exact ⟨_, rfl⟩
  · exact ⟨_, rfl⟩

theorem execEncEnd_completes (s : State) : ∃ t, execEncEnd s = .next t := by
  unfold execEncEnd
  split
  · dsimp only
    split <;> exact ⟨_, rfl⟩
  · exact ⟨_, rfl⟩

theorem execDecStart_completes {s : State} (hd : Distinct s.params.rom) (n : Nat) :
    ∃ t, execDecStart n s = .next t := by
  unfold execDecStart
  split
  · exact ⟨_, withDistinct_of_distinct hd _⟩
  · exact ⟨_, rfl⟩

/-- The one branch of DEC_PUT that stops is an ambiguous match, which a distinct image has not (R110). -/
theorem execDecPut_completes {s : State} (hd : Distinct s.params.rom) (p : Byte) :
    ∃ t, execDecPut p s = .next t := by
  unfold execDecPut
  rw [withDistinct_of_distinct hd]
  split
  · rcases hb : decBits s.params.rom s.dec (byteBits p) with d | d | _
    · exact ⟨_, rfl⟩
    · exact ⟨_, rfl⟩
    · exact absurd hb (decBits_ne_ambiguous hd _ _)
  · exact ⟨_, rfl⟩

theorem execDecEnd_completes {s : State} (hd : Distinct s.params.rom) : ∃ t, execDecEnd s = .next t := by
  unfold execDecEnd
  rw [withDistinct_of_distinct hd]
  split
  · split <;> exact ⟨_, rfl⟩
  · exact ⟨_, rfl⟩

theorem execRdreg_completes (r : RegNum) (s : State) : ∃ t, execRdreg r s = .next t := by
  unfold execRdreg
  split <;> exact ⟨_, rfl⟩

/-- On a distinct image every command completes, from every state. -/
theorem exec_completes {s : State} (hd : Distinct s.params.rom) (i : Instr) : ∃ t, exec i s = .next t := by
  cases i with
  | encStart => exact ⟨_, rfl⟩
  | encPut b => exact execEncPut_completes b s
  | encEnd => exact execEncEnd_completes s
  | decStart n => exact execDecStart_completes hd n
  | decPut p => exact execDecPut_completes hd p
  | decEnd => exact execDecEnd_completes hd
  | rdreg r => exact execRdreg_completes r s
  | rst => exact ⟨_, rfl⟩

theorem formatZ_ne_notAWord (data : Nat) (i : Instr) : formatZ data i ≠ .error .notAWord := by
  unfold formatZ
  split <;> simp

theorem formatB_ne_notAWord (data : Nat) (mk : Byte → Instr) : formatB data mk ≠ .error .notAWord := by
  unfold formatB
  split <;> simp

theorem formatR_ne_notAWord (data : Nat) (mk : RegNum → Instr) : formatR data mk ≠ .error .notAWord := by
  unfold formatR
  split
  · split <;> simp
  · simp

/-- Only an opcode of more than four bits is outside the map of R62. -/
theorem decodeFields_ne_notAWord {op : Nat} (hop : op < 16) (data : Nat) :
    decodeFields op data ≠ .error .notAWord := by
  unfold decodeFields
  split
  · exact formatZ_ne_notAWord _ _
  · exact formatB_ne_notAWord _ _
  · exact formatZ_ne_notAWord _ _
  · simp
  · exact formatB_ne_notAWord _ _
  · exact formatZ_ne_notAWord _ _
  · exact formatR_ne_notAWord _ _
  · exact formatZ_ne_notAWord _ _
  · simp [hop]

/-- A number of `CMDW` bits is a word of the port (R60). -/
theorem decode_ne_notAWord {cntw w : Nat} (hw : w < 2 ^ cmdw cntw) : decode cntw w ≠ .error .notAWord := by
  have hop : opField cntw w < 16 := by
    rw [opField, Nat.div_lt_iff_lt_mul (Nat.two_pow_pos cntw)]
    rwa [cmdw, pow_add] at hw
  exact decodeFields_ne_notAWord hop _

theorem rejectWord_completes {e : IllegalWord} (he : e ≠ .notAWord) (s : State) : ∃ t, rejectWord e s = .next t := by
  cases e with
  | reservedOpcode => exact ⟨_, rfl⟩
  | mustBeZero => exact ⟨_, rfl⟩
  | reservedRegister => exact ⟨_, rfl⟩
  | notAWord => exact absurd rfl he

/-- With words of `CMDW` bits on the port and a distinct image a step completes. -/
theorem step_completes {s : State} (hw : ∀ w ∈ s.commands, w < 2 ^ cmdw s.params.cntw)
    (hd : Distinct s.params.rom) : ∃ t, step s = .next t := by
  rcases hc : s.commands with _ | ⟨w, ws⟩
  · exact ⟨s, step_of_nil hc⟩
  · rcases hdec : decode s.params.cntw w with e | i
    · rw [step_of_decode_error hc hdec]
      have hne := decode_ne_notAWord (hw w (hc ▸ List.mem_cons_self))
      exact rejectWord_completes (fun he => hne (he ▸ hdec)) _
    · rw [step_of_decode_ok hc hdec]
      exact exec_completes (s := s.setCommands ws) hd i

/-- Settles O10: a step completes, and what it answers keeps the invariant. -/
theorem stepNeverStopsOnADistinctImage : Obligations.StepNeverStopsOnADistinctImage := by
  intro s h hd
  obtain ⟨t, ht⟩ := step_completes h.ports_fit.commands_lt hd
  exact ⟨t, ht, everyStepKeepsTheInvariant s t h ht⟩

end Sys2Proof.Machine
end

