-- ==== Sys2Proof/Proofs/UnitChanges.lean ====
section
/-! What the flags, the streams and `DEC.POS` can become in one command, read off the moves of the two units. -/

namespace Sys2Proof.Machine

/-! ## Flags (R26) -/

theorem EncMove.flags {p : Params} {e e' : Encoder} {i : Instr} (m : EncMove p e i e') :
    e'.flags = e.flags ∨ (i = .encStart ∧ e'.flags.phase = .active) ∨
      (i = .encEnd ∧ e.flags.phase = .active ∧ e'.flags.phase = .done) ∨
      ((∃ b, i = .encPut b) ∧ e.flags.phase = .active ∧ e'.flags.phase = .error) ∨
      (i = .rst ∧ e'.flags.phase = .idle) := by
  cases m with
  | keep => exact .inl rfl
  | start => exact .inr (.inl ⟨rfl, rfl⟩)
  | absent b active => exact .inr (.inr (.inr (.inl ⟨⟨b, rfl⟩, active, rfl⟩)))
  | overflow b active => exact .inr (.inr (.inr (.inl ⟨⟨b, rfl⟩, active, rfl⟩)))
  | append b c _ _ _ => exact .inl (appendCode_flags e c)
  | finish active => exact .inr (.inr (.inl ⟨rfl, active, rfl⟩))
  | reset => exact .inr (.inr (.inr (.inr ⟨rfl, rfl⟩)))

theorem DecMove.flags {p : Params} {d d' : Decoder} {i : Instr} (m : DecMove p d i d') :
    d'.flags = d.flags ∨ ((∃ n, i = .decStart n) ∧ d'.flags.phase = .active) ∨
      (i = .decEnd ∧ d.flags.phase = .active ∧ d'.flags.phase = .done) ∨
      (((∃ b, i = .decPut b) ∨ i = .decEnd) ∧ d.flags.phase = .active ∧ d'.flags.phase = .error) ∨
      (i = .rst ∧ d'.flags.phase = .idle) := by
  cases m with
  | keep => exact .inl rfl
  | start n _ => exact .inr (.inl ⟨⟨n, rfl⟩, rfl⟩)
  | take b _ _ taken => exact .inl (decBits_onward (Taking.unit?_of_ok taken)).flags
  | malformed b _ active _ => exact .inr (.inr (.inr (.inl ⟨.inl ⟨b, rfl⟩, active, rfl⟩)))
  | truncated active => exact .inr (.inr (.inr (.inl ⟨.inr rfl, active, rfl⟩)))
  | finish active _ _ => exact .inr (.inr (.inl ⟨rfl, active, rfl⟩))
  | reset => exact .inr (.inr (.inr (.inr ⟨rfl, rfl⟩)))

/-- Settles O32: each move that writes a unit's flags is one of R26's events. -/
theorem phasesChangeOnlyByTheirOwnCommands : Obligations.PhasesChangeOnlyByTheirOwnCommands :=
  fun _ _ _ h => ⟨(exec_effect h).enc.flags, (exec_effect h).dec.flags⟩

/-! ## Streams (R16, R22) -/

theorem EncMove.out {p : Params} {e e' : Encoder} {i : Instr} (m : EncMove p e i e') :
    e.out <+: e'.out ∨ ((i = .encStart ∨ i = .rst) ∧ e'.out = []) := by
  cases m with
  | keep => exact .inl List.prefix_rfl
  | start => exact .inr ⟨.inl rfl, rfl⟩
  | absent b _ => exact .inl List.prefix_rfl
  | overflow b _ => exact .inl List.prefix_rfl
  | append b c _ _ _ =>
    obtain ⟨bs, hout, -⟩ := appendCode_out e c
    exact .inl ⟨bs, hout.symm⟩
  | finish _ =>
    obtain ⟨bs, hout, -⟩ := flushAcc_out e
    exact .inl ⟨bs, hout.symm⟩
  | reset => exact .inr ⟨.inr rfl, rfl⟩

theorem DecMove.out {p : Params} {d d' : Decoder} {i : Instr} (m : DecMove p d i d') :
    d.out <+: d'.out ∨ (((∃ n, i = .decStart n) ∨ i = .rst) ∧ d'.out = []) := by
  cases m with
  | keep => exact .inl List.prefix_rfl
  | start n _ => exact .inr ⟨.inl ⟨n, rfl⟩, rfl⟩
  | take b _ _ taken => exact .inl (decBits_onward (Taking.unit?_of_ok taken)).out
  | malformed b _ _ taken => exact .inl (decBits_onward (Taking.unit?_of_malformed taken)).out
  | truncated _ => exact .inl List.prefix_rfl
  | finish _ _ _ => exact .inl List.prefix_rfl
  | reset => exact .inr ⟨.inr rfl, rfl⟩

/-- Settles O35: each move of a unit appends to its stream, but for the two that empty it. -/
theorem streamsGrowUntilStartOrReset : Obligations.StreamsGrowUntilStartOrReset :=
  fun _ _ _ h => ⟨(exec_effect h).enc.out, (exec_effect h).dec.out⟩

/-! ## `DEC.POS` (R18, R24) -/

/-- The bits of one byte carry `POS` on by at most eight, within the region. -/
theorem decBits_byte_pos {img : Image} {d d' : Decoder} {b : Byte}
    (h : (decBits img d (byteBits b)).unit? = some d') :
    d'.nbits = d.nbits ∧ d.pos ≤ d'.pos ∧ d'.pos ≤ d.pos + 8 ∧ (d.pos ≤ d.nbits → d'.pos ≤ d'.nbits) := by
  have on := decBits_onward h
  exact ⟨on.nbits, on.pos_le, byteBits_length b ▸ decBits_pos_le h, on.inside⟩

theorem DecMove.pos {p : Params} {d d' : Decoder} {i : Instr} (m : DecMove p d i d') (hstart : ∀ n, i ≠ .decStart n)
    (hrst : i ≠ .rst) :
    d'.nbits = d.nbits ∧ d.pos ≤ d'.pos ∧ d'.pos ≤ d.pos + 8 ∧ (d.pos ≤ d.nbits → d'.pos ≤ d'.nbits) := by
  cases m with
  | keep => exact ⟨rfl, le_rfl, Nat.le_add_right _ _, id⟩
  | start n _ => exact absurd rfl (hstart n)
  | take b _ _ taken => exact decBits_byte_pos (Taking.unit?_of_ok taken)
  | malformed b _ _ taken =>
    have hpos := decBits_byte_pos (Taking.unit?_of_malformed taken)
    exact hpos
  | truncated _ => exact ⟨rfl, le_rfl, Nat.le_add_right _ _, id⟩
  | finish _ _ _ => exact ⟨rfl, le_rfl, Nat.le_add_right _ _, id⟩
  | reset => exact absurd rfl hrst

/-- Settles O36: only DEC_PUT moves `POS` within a session, by the bits of one byte. -/
theorem decoderPositionWalksUpward : Obligations.DecoderPositionWalksUpward :=
  fun _ _ _ h hstart hrst => (exec_effect h).dec.pos hstart hrst

end Sys2Proof.Machine
end

