-- ==== Sys2Proof/Proofs/Independence.lean ====
section
/-! Independence of the units (R49): what a command of one unit answers depends on the parameters and on that unit
alone, a command that does not act on a unit leaves it as it was, and so sessions interleave. -/

namespace Sys2Proof.Machine

/-! ## States that agree on some units -/

/-- The states `s` and `s'` have one set of parameters and hold the same of every unit in `us`. -/
structure SameUnits (us : UnitName → Prop) (s s' : State) : Prop where
  params : s.params = s'.params
  enc    : us .enc → s.enc = s'.enc
  dec    : us .dec → s.dec = s'.dec

namespace SameUnits
variable {us : UnitName → Prop} {s s' s'' : State}

theorem refl (us : UnitName → Prop) (s : State) : SameUnits us s s := ⟨rfl, fun _ => rfl, fun _ => rfl⟩

theorem symm (h : SameUnits us s s') : SameUnits us s' s :=
  ⟨h.params.symm, fun hu => (h.enc hu).symm, fun hu => (h.dec hu).symm⟩

theorem trans (h : SameUnits us s s') (h' : SameUnits us s' s'') : SameUnits us s s'' :=
  ⟨h.params.trans h'.params, fun hu => (h.enc hu).trans (h'.enc hu), fun hu => (h.dec hu).trans (h'.dec hu)⟩

theorem mono {vs : UnitName → Prop} (h : SameUnits us s s') (hsub : ∀ u, vs u → us u) : SameUnits vs s s' :=
  ⟨h.params, fun hu => h.enc (hsub _ hu), fun hu => h.dec (hsub _ hu)⟩

theorem setEnc (h : SameUnits us s s') (e : Encoder) : SameUnits us (s.setEnc e) (s'.setEnc e) :=
  ⟨h.params, fun _ => rfl, h.dec⟩

theorem setDec (h : SameUnits us s s') (d : Decoder) : SameUnits us (s.setDec d) (s'.setDec d) :=
  ⟨h.params, h.enc, fun _ => rfl⟩

theorem setUnitFlags (h : SameUnits us s s') (u : UnitName) (f : UnitFlags) :
    SameUnits us (s.setUnitFlags u f) (s'.setUnitFlags u f) := by
  cases u with
  | enc => exact ⟨h.params, fun hu => congrArg (Encoder.setFlags · f) (h.enc hu), h.dec⟩
  | dec => exact ⟨h.params, h.enc, fun hu => congrArg (Decoder.setFlags · f) (h.dec hu)⟩

end SameUnits

/-- Two outcomes of a command that do not differ on the units in `us`: two next states that agree on them, with the same
response, or a refusal for the same reason. -/
inductive SameAnswer (us : UnitName → Prop) : Result → Result → Prop where
  | next {t t' : State} (units : SameUnits us t t') (resp : t.resp = t'.resp) : SameAnswer us (.next t) (.next t')
  | refused (r : Refusal) : SameAnswer us (.refused r) (.refused r)

namespace SameUnits
variable {us : UnitName → Prop} {s s' : State}

theorem respond (h : SameUnits us s s') (st : Status) (v : Nat) :
    SameAnswer us (respond st v s) (respond st v s') := .next ⟨h.params, h.enc, h.dec⟩ rfl

theorem illegalCommand (h : SameUnits us s s') : SameAnswer us (illegalCommand s) (illegalCommand s') := h.respond _ _

theorem raise (h : SameUnits us s s') (u : UnitName) (e : ErrorKind) (n : Nat) :
    SameAnswer us (raise u e n s) (raise u e n s') := (h.setUnitFlags u _).respond _ _

theorem withDistinct (h : SameUnits us s s') {r r' : Result} (hr : SameAnswer us r r') :
    SameAnswer us (withDistinct s r) (withDistinct s' r') := by
  unfold Machine.withDistinct
  rw [h.params]
  split
  · exact hr
  · exact .refused _

end SameUnits

/-! ## One command -/

section
variable {us : UnitName → Prop} {s s' : State}

theorem execEncPut_sameAnswer (henc : us .enc) (h : SameUnits us s s') (b : Byte) :
    SameAnswer us (execEncPut b s) (execEncPut b s') := by
  unfold execEncPut
  rw [h.params, h.enc henc]
  split
  · split
    · exact h.raise ..
    · split
      · exact h.raise ..
      · exact (h.setEnc _).respond _ _
  · exact h.illegalCommand

theorem execEncEnd_sameAnswer (henc : us .enc) (h : SameUnits us s s') :
    SameAnswer us (execEncEnd s) (execEncEnd s') := by
  unfold execEncEnd
  rw [h.enc henc]
  split
  · dsimp only
    split
    · exact (h.setEnc _).respond _ _
    · exact (h.setEnc _).respond _ _
  · exact h.illegalCommand

theorem execDecStart_sameAnswer (h : SameUnits us s s') (n : Nat) :
    SameAnswer us (execDecStart n s) (execDecStart n s') := by
  unfold execDecStart
  rw [h.params]
  split
  · exact h.withDistinct ((h.setDec _).respond _ _)
  · exact h.illegalCommand

theorem execDecPut_sameAnswer (hdec : us .dec) (h : SameUnits us s s') (p : Byte) :
    SameAnswer us (execDecPut p s) (execDecPut p s') := by
  unfold execDecPut
  rw [h.params, h.dec hdec]
  split
  · refine h.withDistinct ?_
    split
    · exact (h.setDec _).respond _ _
    · exact (h.setDec _).raise ..
    · exact .refused _
  · exact h.illegalCommand

theorem execDecEnd_sameAnswer (hdec : us .dec) (h : SameUnits us s s') :
    SameAnswer us (execDecEnd s) (execDecEnd s') := by
  unfold execDecEnd
  rw [h.dec hdec]
  split
  · refine h.withDistinct ?_
    split
    · exact h.raise ..
    · exact (h.setDec _).respond _ _
  · exact h.illegalCommand

/-- RDREG reads no more than the parameters and the registers of both units (R25). -/
theorem readStatusReg_congr (henc : us .enc) (hdec : us .dec) (h : SameUnits us s s') (q : StatusReg) :
    readStatusReg q s = readStatusReg q s' := by
  unfold readStatusReg
  rw [h.params, h.enc henc, h.dec hdec]

theorem execRdreg_sameAnswer (henc : us .enc) (hdec : us .dec) (h : SameUnits us s s') (r : RegNum) :
    SameAnswer us (execRdreg r s) (execRdreg r s') := by
  unfold execRdreg
  split
  · rw [readStatusReg_congr henc hdec h]
    exact h.respond _ _
  · exact h.illegalCommand

end

/-- Every unit whose registers the command reads is in `us`: its own for a PUT or END, both for RDREG, none for a START
or RST, which only write. -/
def ReadsWithin (us : UnitName → Prop) : Instr → Prop
  | .encStart => True
  | .encPut _ => us .enc
  | .encEnd => us .enc
  | .decStart _ => True
  | .decPut _ => us .dec
  | .decEnd => us .dec
  | .rdreg _ => us .enc ∧ us .dec
  | .rst => True

/-- On states that agree on the units it reads a command gives the same answer. -/
theorem exec_sameAnswer {us : UnitName → Prop} {i : Instr} (hi : ReadsWithin us i) {s s' : State}
    (h : SameUnits us s s') : SameAnswer us (exec i s) (exec i s') := by
  cases i with
  | encStart => exact (h.setEnc _).respond _ _
  | encPut b => exact execEncPut_sameAnswer hi h b
  | encEnd => exact execEncEnd_sameAnswer hi h
  | decStart n => exact execDecStart_sameAnswer h n
  | decPut p => exact execDecPut_sameAnswer hi h p
  | decEnd => exact execDecEnd_sameAnswer hi h
  | rdreg r => exact execRdreg_sameAnswer hi.1 hi.2 h r
  | rst => exact ((h.setEnc _).setDec _).respond _ _

/-! ## Commands and the units they act on -/

/-- A command that acts on a unit reads no other (R49). -/
theorem readsWithin_of_actsOn {u : UnitName} {i : Instr} (hi : actsOn u i = true) : ReadsWithin (· = u) i := by
  cases i with
  | encStart => trivial
  | encPut _ => exact (eq_of_beq hi).symm
  | encEnd => exact (eq_of_beq hi).symm
  | decStart _ => trivial
  | decPut _ => exact (eq_of_beq hi).symm
  | decEnd => exact (eq_of_beq hi).symm
  | rdreg _ => cases hi
  | rst => trivial

/-- A command that acts on a unit completes alike, to the same unit, wherever it finds the unit the same. -/
theorem exec_next_sameUnits {u : UnitName} {i : Instr} (hi : actsOn u i = true) {s s' t : State}
    (h : SameUnits (· = u) s s') (ht : exec i s = .next t) :
    ∃ t', exec i s' = .next t' ∧ SameUnits (· = u) t t' ∧ t.resp = t'.resp := by
  have hans := exec_sameAnswer (readsWithin_of_actsOn hi) h
  rw [ht] at hans
  generalize exec i s' = r' at hans
  cases hans with
  | next units resp => exact ⟨_, rfl, units, resp⟩

theorem EncMove.eq_of_not_actsOn {p : Params} {e e' : Encoder} {i : Instr} (m : EncMove p e i e')
    (hi : actsOn .enc i = false) : e' = e := by
  cases m with
  | keep => rfl
  | _ => cases hi

theorem DecMove.eq_of_not_actsOn {p : Params} {d d' : Decoder} {i : Instr} (m : DecMove p d i d')
    (hi : actsOn .dec i = false) : d' = d := by
  cases m with
  | keep => rfl
  | _ => cases hi

/-- A command leaves the units it does not act on as they were. -/
theorem exec_keeps_units {i : Instr} {s t : State} (h : exec i s = .next t) : SameUnits (actsOn · i = false) s t :=
  have m := exec_effect h
  ⟨m.params.symm, fun hi => (m.enc.eq_of_not_actsOn hi).symm, fun hi => (m.dec.eq_of_not_actsOn hi).symm⟩

/-- A command of a unit acts on that unit and on no other (R62). -/
theorem actsOn_of_unit? {u : UnitName} {i : Instr} (hi : i.unit? = some u) (v : UnitName) :
    actsOn v i = (v == u) := by
  cases i with
  | rdreg _ => cases hi
  | rst => cases hi
  | _ => cases hi; rfl

/-- A command of unit `u` has the same answer on two states with the same `u`, and each keeps its other unit. -/
theorem exec_unit?_sameUnits {u : UnitName} {i : Instr} (hi : i.unit? = some u) {s s' t : State}
    (h : SameUnits (· = u) s s') (ht : exec i s = .next t) :
    SameUnits (· ≠ u) s t ∧
      ∃ t', exec i s' = .next t' ∧ SameUnits (· = u) t t' ∧ t.resp = t'.resp ∧ SameUnits (· ≠ u) s' t' := by
  have acts : actsOn u i = true := (actsOn_of_unit? hi u).trans (beq_self_eq_true u)
  have others : ∀ v, v ≠ u → actsOn v i = false := fun v hv => (actsOn_of_unit? hi v).trans (beq_false_of_ne hv)
  obtain ⟨t', ht', same, hresp⟩ := exec_next_sameUnits acts h ht
  exact ⟨(exec_keeps_units ht).mono others, t', ht', same, hresp, (exec_keeps_units ht').mono others⟩

/-- Settles O39: the unit's own answer does not see the other unit, and the other unit is not acted on. -/
theorem commandsOfOneUnitIgnoreTheOther : Obligations.CommandsOfOneUnitIgnoreTheOther := by
  intro i s s' t hparams ht
  constructor
  · intro hi henc
    obtain ⟨keeps, t', ht', same, hresp, keeps'⟩ := exec_unit?_sameUnits hi ⟨hparams, fun _ => henc, nofun⟩ ht
    exact ⟨(keeps.dec nofun).symm, t', ht', (same.enc rfl).symm, hresp.symm, (keeps'.dec nofun).symm⟩
  · intro hi hdec
    obtain ⟨keeps, t', ht', same, hresp, keeps'⟩ := exec_unit?_sameUnits hi ⟨hparams, nofun, fun _ => hdec⟩ ht
    exact ⟨(keeps.enc nofun).symm, t', ht', (same.dec rfl).symm, hresp.symm, (keeps'.enc nofun).symm⟩

/-! ## Lists of commands -/

theorem execAll_cons_eq_next {i : Instr} {is : List Instr} {s t : State} :
    execAll (i :: is) s = .next t ↔ ∃ s₁, exec i s = .next s₁ ∧ execAll is s₁ = .next t := by
  rw [execAll]
  rcases exec i s with s₁ | f | r <;> simp

/-- A list completes exactly when its first part completes and the rest completes from there (R48). -/
theorem execAll_append_eq_next {is js : List Instr} {s t : State} :
    execAll (is ++ js) s = .next t ↔ ∃ s₁, execAll is s = .next s₁ ∧ execAll js s₁ = .next t := by
  induction is generalizing s with
  | nil => simp [execAll]
  | cons i is ih =>
    simp only [List.cons_append, execAll_cons_eq_next, ih]
    constructor
    · rintro ⟨s₁, hi, s₂, his, hjs⟩
      exact ⟨s₂, ⟨s₁, hi, his⟩, hjs⟩
    · rintro ⟨s₂, ⟨s₁, hi, his⟩, hjs⟩
      exact ⟨s₁, hi, s₂, his, hjs⟩

/-- A list of commands completes to the same unit when the commands that do not act on it are left out. -/
theorem execAll_filter_sameUnits {u : UnitName} {is : List Instr} {s s' t : State} (h : SameUnits (· = u) s s')
    (ht : execAll is s = .next t) :
    ∃ t', execAll (is.filter (actsOn u)) s' = .next t' ∧ SameUnits (· = u) t t' := by
  induction is generalizing s s' with
  | nil =>
    cases ht
    exact ⟨s', rfl, h⟩
  | cons i is ih =>
    obtain ⟨s₁, hs₁, ht⟩ := execAll_cons_eq_next.1 ht
    rcases hi : actsOn u i with _ | _
    · rw [List.filter_cons_of_neg (by simp [hi])]
      have keeps : SameUnits (· = u) s s₁ := (exec_keeps_units hs₁).mono (fun _ hv => hv ▸ hi)
      exact ih (keeps.symm.trans h) ht
    · rw [List.filter_cons_of_pos hi]
      obtain ⟨s₁', hs₁', h₁, -⟩ := exec_next_sameUnits hi h hs₁
      obtain ⟨t', ht', same⟩ := ih h₁ ht
      exact ⟨t', execAll_cons_eq_next.2 ⟨s₁', hs₁', ht'⟩, same⟩

/-- Settles O40: leaving out the commands that do not act on the unit leaves it the same up to the last command, which
then answers the same. -/
theorem interleavedSessionsRunAsIfAlone : Obligations.InterleavedSessionsRunAsIfAlone := by
  intro u is i s t hi ht
  have acts : actsOn u i = true := (actsOn_of_unit? hi u).trans (beq_self_eq_true u)
  obtain ⟨s₁, hs₁, hlast⟩ := execAll_append_eq_next.1 ht
  obtain ⟨t₁, hi₁, ht₁⟩ := execAll_cons_eq_next.1 hlast
  cases ht₁
  obtain ⟨s₁', hs₁', same₁⟩ := execAll_filter_sameUnits (.refl _ s) hs₁
  obtain ⟨t', ht', same, hresp⟩ := exec_next_sameUnits acts same₁ hi₁
  refine ⟨t', ?_, hresp.symm, fun hu => (same.enc hu.symm).symm, fun hu => (same.dec hu.symm).symm⟩
  rw [List.filter_append, List.filter_cons_of_pos acts]
  exact execAll_append_eq_next.2 ⟨s₁', hs₁', execAll_cons_eq_next.2 ⟨t', ht', rfl⟩⟩

end Sys2Proof.Machine
end

