-- ==== Sys2Proof/Proofs/Encoding.lean ====
section
/-! The command words (R60 to R64): the decoder reads back the word of a well-formed command. -/

namespace Sys2Proof.Machine

theorem dataFits (i : Instr) : Laws.DataFits.Statement i := by
  cases i with
  | encStart => exact Laws.DataFits.encStart
  | encPut b => exact Laws.DataFits.encPut b
  | encEnd => exact Laws.DataFits.encEnd
  | decStart n => exact Laws.DataFits.decStart n
  | decPut p => exact Laws.DataFits.decPut p
  | decEnd => exact Laws.DataFits.decEnd
  | rdreg r => exact Laws.DataFits.rdreg r
  | rst => exact Laws.DataFits.rst

section
variable {cntw : Nat} {i : Instr} (hdata : i.data < 2 ^ cntw)
include hdata

theorem opField_encode : opField cntw (encode cntw i) = i.opcode := by
  rw [opField, encode, Nat.add_comm, Nat.add_mul_div_right _ _ (Nat.two_pow_pos cntw), Nat.div_eq_of_lt hdata,
    Nat.zero_add]

theorem dataField_encode : dataField cntw (encode cntw i) = i.data := by
  rw [dataField, encode, Nat.add_comm, Nat.add_mul_mod_self_right, Nat.mod_eq_of_lt hdata]

end

theorem formatB_toNat (b : Byte) (mk : Byte → Instr) : formatB b.toNat mk = .ok (mk b) := by
  rw [formatB, if_pos b.isLt, BitVec.ofNat_toNat, BitVec.setWidth_eq]

theorem formatR_toNat {r : RegNum} (hr : reservedNumber r = false) (mk : RegNum → Instr) :
    formatR r.toNat mk = .ok (mk r) := by
  rw [formatR, if_pos r.isLt, BitVec.ofNat_toNat, BitVec.setWidth_eq, hr, if_neg Bool.false_ne_true]

/-- The opcode map of R62 gives back a command from its own two fields. -/
theorem decodeFields_opcode_data {cntw : Nat} {i : Instr} (hwf : i.wf cntw = true) :
    decodeFields i.opcode i.data = .ok i := by
  cases i with
  | encStart => rfl
  | encPut b => exact formatB_toNat b _
  | encEnd => rfl
  | decStart n => rfl
  | decPut p => exact formatB_toNat p _
  | decEnd => rfl
  | rdreg r => exact formatR_toNat (by simpa [Instr.wf] using hwf) _
  | rst => rfl

theorem decode_encode {cntw : Nat} {i : Instr} (hcntw : Config.cntwMin ≤ cntw) (hwf : i.wf cntw = true) :
    decode cntw (encode cntw i) = .ok i := by
  have hdata := (dataFits i cntw hcntw hwf).1
  rw [decode, opField_encode hdata, dataField_encode hdata, decodeFields_opcode_data hwf]

end Sys2Proof.Machine
end

