-- ==== Sys2Proof/Proofs/IssueOrder.lean ====
section
/-! Issue order (R48): a command does not see the words presented after it, and so presenting words runs their commands
in order. -/

namespace Sys2Proof.Machine

/-! ## A command does not see the words after it -/

/-- Go on with `f` from the next state of an outcome; a stop stays as it is. -/
def andThen {σ φ ρ : Type} (r : Host.Outcome σ φ ρ) (f : σ → Host.Outcome σ φ ρ) : Host.Outcome σ φ ρ :=
  match r with
  | .next t => f t
  | .fault r => .fault r
  | .refused r => .refused r

theorem eq_setCommands {t t' : State} (h : SameUnits (fun _ => True) t t') (hresp : t.resp = t'.resp) :
    t' = t.setCommands t'.commands := by
  obtain ⟨hparams, henc, hdec⟩ := h
  cases t
  cases t'
  cases hparams
  cases henc trivial
  cases hdec trivial
  cases hresp
  rfl

/-- The words still to be presented have no part in what a command does. -/
theorem exec_setCommands (i : Instr) (s : State) (ws : List Nat) :
    exec i (s.setCommands ws) = andThen (exec i s) (fun t => .next (t.setCommands ws)) := by
  have hreads : ReadsWithin (fun _ => True) i := by cases i <;> simp [ReadsWithin]
  have hans := exec_sameAnswer hreads (⟨rfl, fun _ => rfl, fun _ => rfl⟩ : SameUnits _ s (s.setCommands ws))
  generalize ht : exec i s = r at hans ⊢
  generalize ht' : exec i (s.setCommands ws) = r' at hans ⊢
  cases hans with
  | next units resp =>
    have hws : _ = ws := (exec_effect ht').commands
    exact congrArg Host.Outcome.next (hws ▸ eq_setCommands units resp)
  | refused r => rfl

/-! ## Presenting commands -/

theorem run_succ (M : Host.Core) (k : Nat) (s : M.State) : M.run (k + 1) s = andThen (M.step s) (M.run k) := by
  rw [Host.Core.run]
  cases M.step s <;> rfl

theorem execAll_cons (i : Instr) (is : List Instr) (s : State) :
    execAll (i :: is) s = andThen (exec i s) (execAll is) := by
  rw [execAll]
  cases exec i s <;> rfl

/-- Presenting the word of a well-formed command before the words `ws` executes the command and runs on with `ws`. -/
theorem run_setCommands_encode_cons {s : State} {i : Instr} (hcntw : Config.cntwMin ≤ s.params.cntw)
    (hwf : i.wf s.params.cntw = true) (k : Nat) (ws : List Nat) :
    Host.Core.run core (k + 1) (s.setCommands (encode s.params.cntw i :: ws)) =
      andThen (exec i s) (fun t => Host.Core.run core k (t.setCommands ws)) := by
  have hstep : core.step (s.setCommands (encode s.params.cntw i :: ws)) = exec i (s.setCommands ws) :=
    step_of_decode_ok (s := s.setCommands _) rfl (decode_encode hcntw hwf)
  refine (run_succ core k _).trans ?_
  rw [hstep, exec_setCommands]
  cases exec i s <;> rfl

/-- Presenting the words of `is` before `rest` executes `is` and leaves `rest` presented. -/
theorem run_setCommands_encode {is : List Instr} {s : State} (rest : List Nat)
    (hcntw : Config.cntwMin ≤ s.params.cntw) (hwf : ∀ i ∈ is, i.wf s.params.cntw = true) :
    Host.Core.run core is.length (s.setCommands (is.map (encode s.params.cntw) ++ rest)) =
      execAll is (s.setCommands rest) := by
  induction is generalizing s with
  | nil => rfl
  | cons i is ih =>
    obtain ⟨hi, his⟩ := List.forall_mem_cons.1 hwf
    refine (run_setCommands_encode_cons hcntw hi is.length _).trans ?_
    rw [execAll_cons, exec_setCommands]
    rcases ht : exec i s with t | f | r
    · have hparams := (exec_effect ht).params
      rw [← hparams] at hcntw his ⊢
      exact ih hcntw his
    · rfl
    · rfl

/-- Settles O8: by induction on the list, a step on a command's word executes it with the later words in place. -/
theorem presentedCommandsRunInIssueOrder : Obligations.PresentedCommandsRunInIssueOrder :=
  fun _ _ rest hcntw hwf => run_setCommands_encode rest hcntw hwf

end Sys2Proof.Machine
end

