-- ==== Sys2Proof/Proofs/Bounds.lean ====
section
/-! What one command writes: never the parameters (R51, R108), and no more into a stream than R46 allows. -/

namespace Sys2Proof.Machine

/-- Settles O33: it is part of the effect of every command. -/
theorem noCommandWritesTheRom : Obligations.NoCommandWritesTheRom :=
  fun _ _ _ h => ⟨(exec_effect h).params, (exec_effect h).commands⟩

/-! ## Emission (R46) -/

/-- ENC_PUT appends the full bytes of at most 7 pending bits and a code of at most 255. -/
theorem EncMove.out_encPut {p : Params} {e e' : Encoder} {b : Byte} (m : EncMove p e (.encPut b) e') :
    ∃ bs, e'.out = e.out ++ bs ∧ bs.length ≤ 32 := by
  cases m with
  | keep => exact ⟨[], (List.append_nil _).symm, Nat.zero_le _⟩
  | absent _ _ => exact ⟨[], (List.append_nil _).symm, Nat.zero_le _⟩
  | overflow _ _ => exact ⟨[], (List.append_nil _).symm, Nat.zero_le _⟩
  | append _ c _ code _ =>
    obtain ⟨bs, hout, hlen⟩ := appendCode_out e c
    have hpending := e.nacc.isLt
    have hcode : c.length ≤ 255 := (romLookup_length code).2
    exact ⟨bs, hout, by omega⟩

/-- ENC_END appends the padded last byte, if bits are pending. -/
theorem EncMove.out_encEnd {p : Params} {e e' : Encoder} (m : EncMove p e .encEnd e') :
    ∃ bs, e'.out = e.out ++ bs ∧ bs.length ≤ 1 := by
  cases m with
  | keep => exact ⟨[], (List.append_nil _).symm, Nat.zero_le _⟩
  | finish _ =>
    obtain ⟨bs, hout, hlen⟩ := flushAcc_out e
    have hpending := e.nacc.isLt
    exact ⟨bs, hout, by omega⟩

/-- `d'` has emitted, since `d`, at most one symbol for each bit it has taken. -/
def Decoder.EmittedWithinBits (d d' : Decoder) : Prop :=
  ∃ ss, d'.out = d.out ++ ss ∧ d.pos + ss.length ≤ d'.pos

theorem Decoder.EmittedWithinBits.refl (d : Decoder) : d.EmittedWithinBits d :=
  ⟨[], (List.append_nil _).symm, le_rfl⟩

theorem decBit_emittedWithinBits {img : Image} {d₀ d d' : Decoder} {b : Bool} (h : d₀.EmittedWithinBits d)
    (hb : (decBit img d b).unit? = some d') : d₀.EmittedWithinBits d' := by
  obtain ⟨ss, hout, hlen⟩ := h
  obtain rfl | ⟨-, -, rfl⟩ | ⟨s, rfl⟩ := decBit_unit hb
  · exact ⟨ss, hout, hlen⟩
  · exact ⟨ss, hout, Nat.le_succ_of_le hlen⟩
  · refine ⟨ss ++ [s], by rw [← List.append_assoc, ← hout], ?_⟩
    rw [List.length_append, List.length_singleton]
    exact Nat.succ_le_succ hlen

theorem decBits_emittedWithinBits {img : Image} {d d' : Decoder} {bs : Bits}
    (h : (decBits img d bs).unit? = some d') : d.EmittedWithinBits d' :=
  decBits_keeps img d.EmittedWithinBits (fun _ _ _ hd _ hb => decBit_emittedWithinBits hd hb) d d' bs (.refl d) h

/-- The eight bits of a byte complete at most eight symbols. -/
theorem decBits_byte_out {img : Image} {d d' : Decoder} {b : Byte} (h : (decBits img d (byteBits b)).unit? = some d') :
    ∃ ss, d'.out = d.out ++ ss ∧ ss.length ≤ 8 := by
  obtain ⟨ss, hout, hlen⟩ := decBits_emittedWithinBits h
  obtain ⟨-, -, hpos, -⟩ := decBits_byte_pos h
  exact ⟨ss, hout, by omega⟩

theorem DecMove.out_decPut {p : Params} {d d' : Decoder} {b : Byte} (m : DecMove p d (.decPut b) d') :
    ∃ ss, d'.out = d.out ++ ss ∧ ss.length ≤ 8 := by
  cases m with
  | keep => exact ⟨[], (List.append_nil _).symm, Nat.zero_le _⟩
  | take _ _ _ taken => exact decBits_byte_out (Taking.unit?_of_ok taken)
  | malformed _ _ _ taken =>
    have hout := decBits_byte_out (Taking.unit?_of_malformed taken)
    exact hout

/-- Settles O34: each of the three commands makes one of its moves. -/
theorem commandsEmitWithinTheirBounds : Obligations.CommandsEmitWithinTheirBounds :=
  fun _ _ => ⟨fun _ h => (exec_effect h).enc.out_encPut, fun h => (exec_effect h).enc.out_encEnd,
    fun _ h => (exec_effect h).dec.out_decPut⟩

end Sys2Proof.Machine
end

