-- ==== Sys2Proof/Proofs/ValidRegion.lean ====
section
/-! The valid region (R45): bits at index `NBITS` and beyond are never examined. -/

namespace Sys2Proof.Machine

/-- A bit that is taken without an error moves `POS` on by one and leaves the region as it is (R133). -/
theorem decBit_ok_pos {img : Image} {d d' : Decoder} {b : Bool} (h : decBit img d b = .ok d') :
    d'.pos = d.pos + 1 ∧ d'.nbits = d.nbits := by
  obtain ⟨-, hd⟩ | ⟨-, -, hd⟩ | ⟨s, -, -, hd⟩ | ⟨-, -, hd⟩ := decBit_cases img d b <;> cases hd.symm.trans h
  · exact ⟨rfl, rfl⟩
  · exact ⟨rfl, rfl⟩

/-- The loop of DEC_PUT examines only the bits that are left of the valid region. -/
theorem decBits_take (img : Image) (d : Decoder) (bs : Bits) :
    decBits img d (bs.take (d.nbits - d.pos)) = decBits img d bs := by
  induction bs generalizing d with
  | nil => rw [List.take_nil]
  | cons b bs ih =>
    by_cases hpos : d.pos < d.nbits
    · obtain ⟨k, hk⟩ : ∃ k, d.nbits - d.pos = k + 1 := ⟨d.nbits - d.pos - 1, by omega⟩
      rw [hk, List.take_succ_cons, decBits, decBits, if_pos hpos, if_pos hpos]
      rcases hb : decBit img d b with d' | d' | _
      · obtain ⟨hpos', hnbits'⟩ := decBit_ok_pos hb
        have hk' : d'.nbits - d'.pos = k := by omega
        simpa only [hk'] using ih d'
      · rfl
      · rfl
    · have h0 : d.nbits - d.pos = 0 := by omega
      have hrest := ih d
      rw [h0, List.take_zero] at hrest
      rw [h0, List.take_zero, hrest, decBits, if_neg hpos]

theorem decBits_congr_take {img : Image} {d : Decoder} {bs cs : Bits}
    (h : bs.take (d.nbits - d.pos) = cs.take (d.nbits - d.pos)) : decBits img d bs = decBits img d cs := by
  rw [← decBits_take, h, decBits_take]

theorem decodeBatch_congr_validBits {img : Image} {P Q : List Byte} {n : Nat} (h : validBits P n = validBits Q n) :
    decodeBatch img P n = decodeBatch img Q n := by
  simp only [decodeBatch, h]

/-- Settles O18: DEC_PUT reads its byte in the loop over its bits only, and the batch function reads its bytes through
the valid bits only. -/
theorem bitsBeyondTheValidRegionDoNotMatter : Obligations.BitsBeyondTheValidRegionDoNotMatter := by
  refine ⟨fun s p q h => ?_, fun _ _ _ _ h => decodeBatch_congr_validBits h⟩
  have hbits := decBits_congr_take (img := s.params.rom) h
  simp only [exec, execDecPut, hbits]

end Sys2Proof.Machine
end

