-- ==== Sys2Proof/Proofs/Packing.lean ====
section
/-! Packing (R42, R44): which bit of the stream lies where in the packed bytes, and reading the bytes back. -/

namespace Sys2Proof.Machine

/-- Bit `j` of a byte in stream order is bit `7 - j` of the byte (R42). -/
theorem byteBits_getElem? (b : Byte) {j : Nat} (h : j < 8) : (byteBits b)[j]? = some (b.getLsbD (7 - j)) :=
  bitsOf_getElem? 8 b.toNat j h

/-- The eight bits of the stream, extended by zeros, that packed byte `k` holds (R42). -/
def packWindow (s : Bits) (k : Nat) : Bits := (List.range 8).map (fun j => s.getD (8 * k + j) false)

theorem packWindow_length (s : Bits) (k : Nat) : (packWindow s k).length = 8 := by
  rw [packWindow, List.length_map, List.length_range]

theorem packWindow_getElem? (s : Bits) (k : Nat) {j : Nat} (h : j < 8) :
    (packWindow s k)[j]? = some (s.getD (8 * k + j) false) := by
  rw [packWindow, List.getElem?_map, List.getElem?_range h, Option.map_some]

/-- A packed byte is its eight bits read as a number. -/
theorem packByte_eq_valOf (s : Bits) (k : Nat) : packByte s k = BitVec.ofNat 8 (valOf (packWindow s k)) := by
  have hlen := packWindow_length s k
  have hwindow : packByte s k = packByte (packWindow s k) 0 := rfl
  rw [hwindow, packByte_zero _ hlen.le, hlen, Nat.sub_self, pow_zero, Nat.mul_one]

theorem byteBits_packByte (s : Bits) (k : Nat) : byteBits (packByte s k) = packWindow s k := by
  calc byteBits (packByte s k) = bitsOf 8 (valOf (packWindow s k) % 2 ^ 8) := by
        rw [packByte_eq_valOf, byteBits, BitVec.toNat_ofNat]
    _ = bitsOf (packWindow s k).length (valOf (packWindow s k)) := by rw [bitsOf_mod, packWindow_length]
    _ = packWindow s k := bitsOf_valOf _

/-- Bit `7 - j` of packed byte `k` is bit `8k + j` of the stream, zero beyond its end (R42, R44). -/
theorem packByte_getLsbD (s : Bits) (k : Nat) {j : Nat} (h : j < 8) :
    (packByte s k).getLsbD (7 - j) = s.getD (8 * k + j) false := by
  have hbit := byteBits_getElem? (packByte s k) h
  rw [byteBits_packByte, packWindow_getElem? s k h] at hbit
  exact (Option.some.inj hbit).symm

theorem pack_length (s : Bits) : (pack s).length = (s.length + 7) / 8 := by
  rw [pack, List.length_map, List.length_range]

theorem pack_getD (s : Bits) {k : Nat} (h : k < (pack s).length) : (pack s).getD k 0 = packByte s k := by
  rw [List.getD_eq_getElem _ _ h]
  simp only [pack, List.getElem_map, List.getElem_range]

/-- Bit `i` of a byte sequence in stream order lies in byte `i / 8` at position `7 - i mod 8` (R42). -/
theorem flatMap_byteBits_getElem? (P : List Byte) {i : Nat} (h : i < 8 * P.length) :
    (P.flatMap byteBits)[i]? = some ((P.getD (i / 8) 0).getLsbD (7 - i % 8)) := by
  induction P generalizing i with
  | nil => simp at h
  | cons b P ih =>
    rw [List.length_cons] at h
    rw [List.flatMap_cons]
    by_cases hi : i < 8
    · rw [List.getElem?_append_left (by rwa [byteBits_length]), byteBits_getElem? b hi, Nat.div_eq_of_lt hi,
        Nat.mod_eq_of_lt hi, List.getD_cons_zero]
    · obtain ⟨j, rfl⟩ : ∃ j, i = j + 8 := ⟨i - 8, by omega⟩
      rw [List.getElem?_append_right (by rw [byteBits_length]; omega), byteBits_length, Nat.add_sub_cancel,
        ih (by omega), Nat.add_div_right j (by decide), Nat.add_mod_right, List.getD_cons_succ]

theorem validBits_getElem? (P : List Byte) {n i : Nat} (hn : i < n) (hP : i < 8 * P.length) :
    (validBits P n)[i]? = some ((P.getD (i / 8) 0).getLsbD (7 - i % 8)) := by
  rw [validBits, List.getElem?_take_of_lt hn, flatMap_byteBits_getElem? P hP]

/-- The packed bytes read back are the stream (R42, R44). -/
theorem validBits_pack (s : Bits) : validBits (pack s) s.length = s := by
  apply List.ext_getElem?
  intro i
  by_cases hi : i < s.length
  · have hbyte : i / 8 < (pack s).length := by rw [pack_length]; omega
    have hmod := Nat.mod_lt i (by decide : 0 < 8)
    rw [validBits_getElem? _ hi (by omega), pack_getD s hbyte, packByte_getLsbD s _ hmod, Nat.div_add_mod,
      List.getD_eq_getElem _ _ hi, List.getElem?_eq_getElem hi]
  · rw [List.getElem?_eq_none (by simp [validBits]; omega), List.getElem?_eq_none (by omega)]

/-- Settles O42: the bits of one packed byte are a window of the stream, and the reader's bit `i` is in byte `i / 8`. -/
theorem packingIsMostSignificantBitFirst : Obligations.PackingIsMostSignificantBitFirst :=
  fun s => ⟨pack_length s, fun k hk _ hj => by rw [pack_getD s hk, packByte_getLsbD s k hj], validBits_pack s,
    fun P _ _ hn hP => validBits_getElem? P hn hP⟩

end Sys2Proof.Machine
end

section
/-! The decoder read backwards (R60 to R64): what an accepted word says of its command, and which words of the port are
accepted by none of the formats (R63). -/

namespace Sys2Proof.Machine

/-! ## The formats: what each accepts -/

theorem formatZ_eq_ok {data : Nat} {i j : Instr} : formatZ data i = .ok j ↔ data = 0 ∧ i = j := by
  unfold formatZ
  split <;> simp [*]

theorem formatB_eq_ok {data : Nat} {mk : Byte → Instr} {j : Instr} :
    formatB data mk = .ok j ↔ ∃ b : Byte, b.toNat = data ∧ mk b = j := by
  constructor
  · intro h
    unfold formatB at h
    split at h
    · rename_i hlt
      exact ⟨_, (BitVec.toNat_ofNat _ _).trans (Nat.mod_eq_of_lt hlt), Except.ok.inj h⟩
    · cases h
  · rintro ⟨b, rfl, rfl⟩
    exact formatB_toNat b mk

theorem formatR_eq_ok {data : Nat} {mk : RegNum → Instr} {j : Instr} :
    formatR data mk = .ok j ↔ ∃ r : RegNum, reservedNumber r = false ∧ r.toNat = data ∧ mk r = j := by
  constructor
  · intro h
    unfold formatR at h
    split at h
    · rename_i hlt
      split at h
      · cases h
      · rename_i hr
        exact ⟨_, Bool.eq_false_of_not_eq_true hr, (BitVec.toNat_ofNat _ _).trans (Nat.mod_eq_of_lt hlt),
          Except.ok.inj h⟩
    · cases h
  · rintro ⟨r, hr, rfl, rfl⟩
    exact formatR_toNat hr mk

/-! ## The formats: what each rejects (R63 (b), (c)) -/

theorem formatZ_rejects (data : Nat) (i : Instr) : (∃ e, formatZ data i = .error e) ↔ data ≠ 0 := by
  unfold formatZ
  split <;> simp [*]

theorem formatB_rejects (data : Nat) (mk : Byte → Instr) : (∃ e, formatB data mk = .error e) ↔ 256 ≤ data := by
  unfold formatB
  split <;> simp [← Nat.not_lt, *]

theorem reservedNumber_eq_true (r : RegNum) :
    reservedNumber r = true ↔ r.toNat = 7 ∨ r.toNat = 15 ∨ 18 ≤ r.toNat := by
  simp [reservedNumber, ← BitVec.toNat_inj, or_assoc]

theorem formatR_rejects (data : Nat) (mk : RegNum → Instr) :
    (∃ e, formatR data mk = .error e) ↔ data = 7 ∨ data = 15 ∨ 18 ≤ data := by
  unfold formatR
  split
  · rename_i hlt
    have hr := reservedNumber_eq_true (BitVec.ofNat 5 data)
    rw [BitVec.toNat_ofNat, Nat.mod_eq_of_lt hlt] at hr
    rw [← hr]
    split <;> simp [*]
  · exact iff_of_true ⟨_, rfl⟩ (by omega)

/-! ## The opcode map of R62 -/

/-- The two fields of an accepted word are those of its command, and the command is well-formed. -/
theorem decodeFields_eq_ok {cntw op data : Nat} {i : Instr} (hdata : data < 2 ^ cntw)
    (h : decodeFields op data = .ok i) : i.wf cntw = true ∧ i.opcode = op ∧ i.data = data := by
  unfold decodeFields at h
  split at h
  case h_1 | h_3 | h_6 | h_8 =>
    obtain ⟨rfl, rfl⟩ := formatZ_eq_ok.1 h
    exact ⟨rfl, rfl, rfl⟩
  case h_2 | h_5 =>
    obtain ⟨b, rfl, rfl⟩ := formatB_eq_ok.1 h
    exact ⟨rfl, rfl, rfl⟩
  case h_4 =>
    obtain rfl := Except.ok.inj h
    exact ⟨decide_eq_true hdata, rfl, rfl⟩
  case h_7 =>
    obtain ⟨r, hr, rfl, rfl⟩ := formatR_eq_ok.1 h
    exact ⟨by simp [Instr.wf, hr], rfl, rfl⟩
  case h_9 => split at h <;> cases h

/-- The illegal encodings of R63 by the two fields of a word: (a) a reserved opcode, (b) a must-be-zero part that is
not zero, (c) a reserved register number. -/
def IllegalFields (op data : Nat) : Prop :=
  op ∈ [0x0, 0x4, 0x9, 0xA, 0xB, 0xC, 0xD, 0xE] ∨ (op ∈ [0x1, 0x3, 0x7, 0xF] ∧ data ≠ 0) ∨
    (op ∈ [0x2, 0x6] ∧ 256 ≤ data) ∨ (op = 0x8 ∧ (data = 7 ∨ data = 15 ∨ 18 ≤ data))

/-- Among the words of the port the decoder rejects exactly those of R63. -/
theorem decodeFields_rejects {op : Nat} (hop : op < 16) (data : Nat) :
    (∃ e, decodeFields op data = .error e) ↔ IllegalFields op data := by
  unfold decodeFields
  split
  case h_1 | h_3 | h_6 | h_8 => simp [formatZ_rejects, IllegalFields]
  case h_2 | h_5 => simp [formatB_rejects, IllegalFields]
  case h_4 => simp [IllegalFields]
  case h_7 => simp [formatR_rejects, IllegalFields]
  case h_9 =>
    have hreserved : IllegalFields op data := by
      left
      simp only [List.mem_cons, List.not_mem_nil, or_false, imp_false] at *
      omega
    simp [hop, hreserved]

/-! ## Whole words -/

theorem dataField_lt (cntw w : Nat) : dataField cntw w < 2 ^ cntw := Nat.mod_lt w (Nat.two_pow_pos cntw)

theorem opField_lt {cntw w : Nat} (hw : w < 2 ^ (4 + cntw)) : opField cntw w < 16 := by
  rw [pow_add] at hw
  exact Nat.div_lt_of_lt_mul (by rwa [mul_comm] at hw)

/-- Four bits above `cntw` bits make `CMDW` bits (R60, R65). -/
theorem fields_lt {cntw op data : Nat} (hop : op < 16) (hdata : data < 2 ^ cntw) :
    op * 2 ^ cntw + data < 2 ^ (4 + cntw) := by
  have hfull : (op + 1) * 2 ^ cntw ≤ 2 ^ (4 + cntw) := by
    rw [pow_add]
    exact Nat.mul_le_mul_right _ hop
  rw [Nat.add_mul, Nat.one_mul] at hfull
  omega

theorem decode_eq_ok {cntw w : Nat} {i : Instr} (h : decode cntw w = .ok i) :
    i.wf cntw = true ∧ encode cntw i = w := by
  obtain ⟨hwf, hop, hdata⟩ := decodeFields_eq_ok (dataField_lt cntw w) h
  refine ⟨hwf, ?_⟩
  rw [encode, hop, hdata]
  exact Nat.div_add_mod' w (2 ^ cntw)

/-! ## Words and commands that change nothing -/

/-- R166: out of its unit's phase a command is answered as an illegal word is. -/
theorem exec_of_not_legalByPhase {i : Instr} {s : State} (h : legalByPhase i s = false) :
    exec i s = illegalCommand s := by
  cases i with
  | encPut | encEnd | decPut | decEnd => exact if_neg (ne_true_of_eq_false h)
  | encStart | decStart | rdreg | rst => cases h

theorem rejectWord_of_ne_notAWord {e : IllegalWord} (he : e ≠ .notAWord) (s : State) :
    rejectWord e s = illegalCommand s := by
  cases e with
  | reservedOpcode => rfl
  | mustBeZero => rfl
  | reservedRegister => rfl
  | notAWord => exact absurd rfl he

/-! ## The statements -/

/-- Settles O1: the decoder reads the command back from its two fields, which fit the word. -/
theorem decodeOfEncodeIsTheCommand : Obligations.DecodeOfEncodeIsTheCommand := by
  intro cntw i hcntw hwf
  obtain ⟨hdata, hop⟩ := dataFits i cntw hcntw hwf
  exact ⟨decode_encode hcntw hwf, fields_lt hop hdata⟩

/-- Settles O2: an accepted word has the two fields of its command. -/
theorem encodeOfDecodeIsTheWord : Obligations.EncodeOfDecodeIsTheWord :=
  fun _ _ _ _ hdecode => decode_eq_ok hdecode

/-- Settles O3: the eight words are those of their commands; the last two are words of R63 (a) and (b). -/
theorem commandWordsOfTheTableDecode : Obligations.CommandWordsOfTheTableDecode := by
  have hword {i : Instr} (hwf : i.wf 32 = true) : decode 32 (encode 32 i) = .ok i := decode_encode (by decide) hwf
  exact ⟨hword (i := .encStart) rfl, hword (i := .encPut 0x61) rfl, hword (i := .encEnd) rfl,
    hword (i := .decStart 14) rfl, hword (i := .decPut 0xC8) rfl, hword (i := .decEnd) rfl,
    hword (i := .rdreg 12) rfl, hword (i := .rst) rfl, rfl, rfl⟩

/-- Settles O4: a word of the port is either rejected, which is R63, or the word of the command it decodes to. -/
theorem illegalCommandsChangeNothing : Obligations.IllegalCommandsChangeNothing := by
  intro s w ws hcntw hw hcommands op data illegal
  have hrejects : (∃ e, decode s.params.cntw w = .error e) ↔ illegal := decodeFields_rejects (opField_lt hw) data
  rcases hdecode : decode s.params.cntw w with e | i
  · have he : e ≠ .notAWord := fun he => decode_ne_notAWord hw (he ▸ hdecode)
    refine ⟨fun _ => ?_, fun hlegal => absurd (hrejects.1 ⟨e, hdecode⟩) hlegal⟩
    rw [step_of_decode_error hcommands hdecode, rejectWord_of_ne_notAWord he]
    rfl
  · obtain ⟨hwf, hencode⟩ := decode_eq_ok hdecode
    have hstep := step_of_decode_ok hcommands hdecode
    refine ⟨fun hillegal => ?_, fun _ => ⟨i, hwf, hencode, hstep, fun hphase => ?_⟩⟩
    · obtain ⟨e, he⟩ := hrejects.2 hillegal
      cases hdecode.symm.trans he
    · exact hstep.trans (exec_of_not_legalByPhase (s := s.setCommands ws) hphase)

end Sys2Proof.Machine
end

section
/-! Responses (R65, R161): the two fields of a response word, and the statuses that commands answer. -/

namespace Sys2Proof.Machine

/-! ## The response word -/

theorem Status.code_lt (st : Status) : st.code < 16 := by
  rcases st with _ | _ | (_ | _ | _ | _ | _) | _ <;> decide

/-- Bit 3 of the code marks the statuses that are not successes (R65). -/
theorem Status.testBit_three_code (st : Status) : st.code.testBit 3 = true ↔ st ≠ .ok ∧ st ≠ .nothing := by
  rcases st with _ | _ | (_ | _ | _ | _ | _) | _ <;> decide

theorem Response.word_fields {cntw : Nat} {r : Response} (hr : r.value < 2 ^ cntw) :
    r.word cntw / 2 ^ cntw = r.status.code ∧ r.word cntw % 2 ^ cntw = r.value := by
  refine (Nat.div_mod_unique (Nat.two_pow_pos cntw)).2 ⟨?_, hr⟩
  rw [Response.word, mul_comm, add_comm]

/-- Settles O5: the word's fields, read with the status codes of R65. -/
theorem responseWordCarriesBothFields : Obligations.ResponseWordCarriesBothFields := by
  intro cntw r hr code
  have hcode : r.status.code = code r.status := by
    rcases r.status with _ | _ | (_ | _ | _ | _ | _) | _ <;> rfl
  obtain ⟨hstatus, hvalue⟩ := Response.word_fields hr
  rw [← hcode]
  exact ⟨fields_lt r.status.code_lt hr, hstatus, hvalue, rfl, r.status.testBit_three_code⟩

/-! ## The statuses that commands answer -/

/-- A response that a command may answer: no reserved code and not E_EMPTY_INPUT, and the value 0 with
ST_ILLEGAL_CMD (R65, R161). -/
structure Response.Allowed (r : Response) : Prop where
  code    : r.status.code ∈ [0x0, 0x1, 0x9, 0xA, 0xB, 0xC, 0xF]
  illegal : r.status = .illegalCmd → r.value = 0

theorem Status.code_allowed {st : Status} (hst : st ≠ .err .emptyInput) :
    st.code ∈ [0x0, 0x1, 0x9, 0xA, 0xB, 0xC, 0xF] := by
  rcases st with _ | _ | (_ | _ | _ | _ | _) | _
  case err.emptyInput => exact absurd rfl hst
  all_goals decide

theorem Response.Allowed.of_ne {st : Status} {v : Nat} (hempty : st ≠ .err .emptyInput) (hill : st ≠ .illegalCmd) :
    Response.Allowed ⟨st, v⟩ := ⟨Status.code_allowed hempty, fun h => absurd h hill⟩

theorem Response.Allowed.illegalCmd : Response.Allowed ⟨.illegalCmd, 0⟩ :=
  ⟨Status.code_allowed (by decide), fun _ => rfl⟩

theorem exec_resp_allowed {i : Instr} {s t : State} (h : exec i s = .next t) : ∃ r, t.resp = some r ∧ r.Allowed := by
  cases i with
  | encStart =>
    obtain rfl := (execEncStart_next s t).1 h
    exact ⟨_, rfl, .of_ne (by decide) (by decide)⟩
  | encPut b =>
    obtain ⟨-, rfl⟩ | ⟨-, -, rfl⟩ | ⟨_, -, -, -, rfl⟩ | ⟨_, -, -, -, rfl⟩ := execEncPut_next h
    · exact ⟨_, rfl, .illegalCmd⟩
    all_goals exact ⟨_, rfl, .of_ne (by decide) (by decide)⟩
  | encEnd =>
    obtain ⟨-, rfl⟩ | ⟨-, rfl⟩ := execEncEnd_next h
    · exact ⟨_, rfl, .illegalCmd⟩
    · refine ⟨_, rfl, ?_⟩
      split <;> exact .of_ne (by decide) (by decide)
  | decStart n =>
    obtain ⟨-, rfl⟩ | ⟨-, -, rfl⟩ := execDecStart_next h
    · exact ⟨_, rfl, .illegalCmd⟩
    · exact ⟨_, rfl, .of_ne (by decide) (by decide)⟩
  | decPut p =>
    obtain ⟨-, rfl⟩ | ⟨_, -, -, -, rfl⟩ | ⟨_, -, -, -, rfl⟩ := execDecPut_next h
    · exact ⟨_, rfl, .illegalCmd⟩
    all_goals exact ⟨_, rfl, .of_ne (by decide) (by decide)⟩
  | decEnd =>
    obtain ⟨-, rfl⟩ | ⟨-, -, -, rfl⟩ | ⟨-, -, -, -, rfl⟩ := execDecEnd_next h
    · exact ⟨_, rfl, .illegalCmd⟩
    all_goals exact ⟨_, rfl, .of_ne (by decide) (by decide)⟩
  | rdreg r =>
    obtain ⟨-, rfl⟩ | ⟨_, -, rfl⟩ := execRdreg_next h
    · exact ⟨_, rfl, .illegalCmd⟩
    · exact ⟨_, rfl, .of_ne (by decide) (by decide)⟩
  | rst =>
    obtain rfl := (execRst_next s t).1 h
    exact ⟨_, rfl, .of_ne (by decide) (by decide)⟩

/-- Settles O28: every way a command completes answers one of the allowed responses. -/
theorem everyCommandReturnsAnAllowedStatus : Obligations.EveryCommandReturnsAnAllowedStatus := by
  intro i s t h
  obtain ⟨r, hr, hcode, hillegal⟩ := exec_resp_allowed h
  exact ⟨r, hr, hcode, hillegal⟩

end Sys2Proof.Machine
end

section
/-! The tree builder (R83, R84): the merges are a loop whose invariant says that the working set still holds every
seeded leaf under weights that are sums, so the root has one leaf per distinct symbol (R88, R89). -/

namespace Sys2Proof.Machine

/-! ## Leaves -/

/-- The symbols at the leaves of a tree, from left to right. -/
def HuffmanNode.symbols : HuffmanNode → List Byte
  | .leaf s _ => [s]
  | .internal _ l r => l.symbols ++ r.symbols

theorem HuffmanNode.symbols_length (n : HuffmanNode) : n.symbols.length = n.leaves := by
  induction n with
  | leaf s w => rfl
  | internal w l r ihl ihr => simp [symbols, leaves, ihl, ihr]

/-- R88 (c): every internal node has two children. -/
theorem HuffmanNode.internals_add_one (n : HuffmanNode) : n.internals + 1 = n.leaves := by
  induction n with
  | leaf s w => rfl
  | internal w l r ihl ihr =>
    rw [internals, leaves]
    omega

/-! ## The merges -/

/-- The tree `root` is what the nodes of the working set `ws` join up to: the leaves are theirs, the weight is their
sum, and it weighs as R82 says if they do. -/
structure HuffmanNode.Joins (root : HuffmanNode) (ws : List Ranked) : Prop where
  symbols : root.symbols.Perm (ws.flatMap (·.node.symbols))
  weight  : root.weight = (ws.map (·.node.weight)).sum
  weighed : (∀ a ∈ ws, a.node.weighed) → root.weighed

theorem HuffmanNode.Joins.singleton (a : Ranked) : a.node.Joins [a] where
  symbols := by simp
  weight := by simp
  weighed h := h a (List.mem_singleton_self a)

/-- The order of the working set does not matter to what it joins up to. -/
theorem HuffmanNode.Joins.of_perm {root : HuffmanNode} {ws ws' : List Ranked} (h : root.Joins ws)
    (hp : ws.Perm ws') : root.Joins ws' where
  symbols := h.symbols.trans (hp.flatMap_right _)
  weight := h.weight.trans (hp.map _).sum_nat
  weighed hw := h.weighed fun a ha => hw a (hp.mem_iff.1 ha)

/-- One merge undone: the new internal node stands for its two children. -/
theorem HuffmanNode.Joins.of_merge {root : HuffmanNode} {a b : Ranked} {rest : List Ranked} {n : Nat}
    (h : root.Joins (⟨.internal (a.node.weight + b.node.weight) a.node b.node, n⟩ :: rest)) :
    root.Joins (a :: b :: rest) where
  symbols := by simpa [HuffmanNode.symbols] using h.symbols
  weight := by simpa [HuffmanNode.weight, add_assoc] using h.weight
  weighed hw := h.weighed <| by
    obtain ⟨ha, hb, hrest⟩ : a.node.weighed ∧ b.node.weighed ∧ ∀ c ∈ rest, c.node.weighed := by simpa using hw
    exact List.forall_mem_cons.2 ⟨⟨rfl, ha, hb⟩, hrest⟩

theorem insertRanked_perm (x : Ranked) (ws : List Ranked) : (insertRanked x ws).Perm (x :: ws) := by
  induction ws with
  | nil => exact .refl _
  | cons y ws ih =>
    rw [insertRanked]
    split
    · exact .refl _
    · exact (ih.cons y).trans (.swap x y ws)

/-- The loop of R83 ends with one tree when its bound allows a merge for each node of the working set but one. -/
theorem mergeAll_joins {f next : Nat} {ws : List Ranked} (hne : ws ≠ []) (hlen : ws.length ≤ f + 1) :
    ∃ root, mergeAll f next ws = some root ∧ root.Joins ws := by
  induction f generalizing next ws with
  | zero =>
    obtain ⟨a, rfl⟩ := List.length_eq_one_iff.1 (Nat.le_antisymm hlen (List.length_pos_iff.2 hne))
    exact ⟨a.node, rfl, .singleton a⟩
  | succ f ih =>
    match ws, hne, hlen with
    | [a], _, _ => exact ⟨a.node, rfl, .singleton a⟩
    | a :: b :: rest, _, hlen =>
      have hperm := insertRanked_perm ⟨.internal (a.node.weight + b.node.weight) a.node b.node, next⟩ rest
      have hmerged := hperm.length_eq
      obtain ⟨root, hroot, hjoins⟩ := ih (next := next + 1) (List.ne_nil_of_length_pos (hmerged ▸ Nat.succ_pos _))
        (hmerged ▸ Nat.le_of_succ_le_succ hlen)
      exact ⟨root, hroot, (hjoins.of_perm hperm).of_merge⟩

/-! ## The leaves seeded -/

/-- The leaf of a frequency entry with its sequence number (R84). -/
def seedLeaf (p : (Byte × Nat) × Nat) : Ranked := ⟨.leaf p.1.1 p.1.2, p.2⟩

theorem foldr_insertRanked_perm (ws : List Ranked) : (ws.foldr insertRanked []).Perm ws := by
  induction ws with
  | nil => exact .refl _
  | cons x ws ih => exact (insertRanked_perm x _).trans (ih.cons x)

theorem seedLeaves_perm (freq : List (Byte × Nat)) : (seedLeaves freq).Perm (freq.zipIdx.map seedLeaf) :=
  foldr_insertRanked_perm _

theorem map_fst_zipIdx {α β : Type} (f : α → β) (l : List α) : l.zipIdx.map (fun p => f p.1) = l.map f := by
  conv_rhs => rw [← List.zipIdx_map_fst 0 l, List.map_map]
  rfl

theorem seedLeaves_symbols (freq : List (Byte × Nat)) :
    ((seedLeaves freq).flatMap (·.node.symbols)).Perm (freq.map Prod.fst) := by
  rw [← map_fst_zipIdx Prod.fst freq, List.map_eq_flatMap]
  simpa only [List.flatMap_map, seedLeaf, HuffmanNode.symbols]
    using (seedLeaves_perm freq).flatMap_right (·.node.symbols)

theorem seedLeaves_weight (freq : List (Byte × Nat)) :
    ((seedLeaves freq).map (·.node.weight)).sum = (freq.map Prod.snd).sum := by
  rw [((seedLeaves_perm freq).map _).sum_nat, List.map_map, ← map_fst_zipIdx Prod.snd freq]
  rfl

theorem seedLeaves_weighed (freq : List (Byte × Nat)) : ∀ a ∈ seedLeaves freq, a.node.weighed := by
  intro a ha
  obtain ⟨p, -, rfl⟩ := List.mem_map.1 ((seedLeaves_perm freq).mem_iff.1 ha)
  trivial

theorem seedLeaves_length (freq : List (Byte × Nat)) : (seedLeaves freq).length = freq.length := by
  rw [(seedLeaves_perm freq).length_eq, List.length_map, List.length_zipIdx]

theorem buildTree_nil : buildTree [] = .error .emptyInput := rfl

/-- R83: on a non-empty frequency table the builder gives a tree whose leaves are the symbols of the table and whose
weight is the sum of the counts. -/
theorem buildTree_ok {freq : List (Byte × Nat)} (hne : freq ≠ []) :
    ∃ root, buildTree freq = .ok root ∧ root.symbols.Perm (freq.map Prod.fst) ∧
      root.weight = (freq.map Prod.snd).sum ∧ root.weighed := by
  have hlen := seedLeaves_length freq
  have hseeds : seedLeaves freq ≠ [] := List.ne_nil_of_length_pos (hlen ▸ List.length_pos_iff.2 hne)
  obtain ⟨root, hroot, hsymbols, hweight, hweighed⟩ :=
    mergeAll_joins (next := freq.length) hseeds (hlen.trans_le (Nat.le_succ _))
  exact ⟨root, by rw [buildTree, hroot], hsymbols.trans (seedLeaves_symbols freq),
    hweight.trans (seedLeaves_weight freq), hweighed (seedLeaves_weighed freq)⟩

/-! ## The frequency table (R81) -/

theorem allSymbols_nodup : allSymbols.Nodup := by
  refine List.nodup_range.map_on fun i hi j hj hij => ?_
  rw [List.mem_range, Config.nsyms] at hi hj
  have hmod : i % 256 = j % 256 := by simpa using congrArg BitVec.toNat hij
  omega

theorem mem_allSymbols (s : Byte) : s ∈ allSymbols :=
  List.mem_map.2 ⟨s.toNat, List.mem_range.2 s.isLt, BitVec.ofNat_toNat 8 s⟩

theorem frequencies_map_fst (B : List Byte) : ((frequencies B).map Prod.fst).Perm B.dedup := by
  have hfst : (frequencies B).map Prod.fst = allSymbols.filter (fun s => s ∈ B) := by
    simp [frequencies, Function.comp_def]
  rw [hfst, List.perm_ext_iff_of_nodup (allSymbols_nodup.filter _) (List.nodup_dedup B)]
  simp [mem_allSymbols]

/-- The counts add up to the number of bytes. -/
theorem frequencies_sum_snd (B : List Byte) : ((frequencies B).map Prod.snd).sum = B.length := by
  have hsnd : (frequencies B).map Prod.snd = ((frequencies B).map Prod.fst).map (B.count ·) := by
    simp [frequencies]
  rw [hsnd, ((frequencies_map_fst B).map _).sum_nat, List.sum_map_count_dedup_eq_length]

theorem frequencies_ne_nil {B : List Byte} (hB : B ≠ []) : frequencies B ≠ [] := by
  intro hnil
  have hperm := frequencies_map_fst B
  rw [hnil, List.map_nil] at hperm
  exact hB ((List.dedup_eq_nil B).1 hperm.nil_eq.symm)

/-- The tree of a non-empty buffer (R83 on the table of R81). -/
theorem buildTree_frequencies {B : List Byte} (hB : B ≠ []) :
    ∃ root, buildTree (frequencies B) = .ok root ∧ root.symbols.Perm B.dedup ∧ root.weight = B.length ∧
      root.weighed := by
  obtain ⟨root, hroot, hsymbols, hweight, hweighed⟩ := buildTree_ok (frequencies_ne_nil hB)
  exact ⟨root, hroot, hsymbols.trans (frequencies_map_fst B), hweight.trans (frequencies_sum_snd B), hweighed⟩

/-- Settles O51: the merges keep the seeded leaves and the sum of the weights, and a tree's shape gives the rest. -/
theorem huffmanTreeHasALeafPerSymbol : Obligations.HuffmanTreeHasALeafPerSymbol := by
  refine ⟨fun B hB => ?_, buildTree_nil⟩
  obtain ⟨root, hroot, hsymbols, hweight, hweighed⟩ := buildTree_frequencies hB
  have hleaves : root.leaves = B.dedup.length := by rw [← root.symbols_length, hsymbols.length_eq]
  exact ⟨root, hroot, hleaves, root.internals_add_one, hweighed, hweight⟩

end Sys2Proof.Machine
end

section
/-! The code table of a tree (R85, R87): one non-empty code per leaf, none the start of another, and Kraft's sum of
the table at most 1, exactly 1 when the tree branches (R88). -/

namespace Sys2Proof.Machine

/-- Kraft's sum of a code table, scaled by `2^LMAX` as `kraftSum` is (R88). -/
def tableKraft (t : List (Byte × Bits)) : Nat := (t.map (fun x => 2 ^ (Config.lmax - x.2.length))).sum

@[simp] theorem tableKraft_append (t u : List (Byte × Bits)) : tableKraft (t ++ u) = tableKraft t + tableKraft u := by
  simp [tableKraft]

@[simp] theorem tableKraft_singleton (s : Byte) (c : Bits) : tableKraft [(s, c)] = 2 ^ (Config.lmax - c.length) := by
  simp [tableKraft]

/-- A table that R90 can make an image of: one code per symbol, 1 to `LMAX` bits long. -/
structure TableFits (t : List (Byte × Bits)) : Prop where
  nodup     : (t.map Prod.fst).Nodup
  ne_nil    : ∀ x ∈ t, x.2 ≠ []
  length_le : ∀ x ∈ t, x.2.length ≤ Config.lmax

/-- What R88 (a) and (d) say of a table. -/
structure PrefixTable (t : List (Byte × Bits)) : Prop where
  prefix_free : ∀ x ∈ t, ∀ y ∈ t, x.2 <+: y.2 → x = y
  kraft       : tableKraft t ≤ 2 ^ Config.lmax

/-! ## The traversal (R87) -/

theorem traverse_map_fst (n : HuffmanNode) (path : Bits) : (traverse n path).map Prod.fst = n.symbols := by
  induction n generalizing path with
  | leaf s w => rfl
  | internal w l r ihl ihr => simp [traverse, HuffmanNode.symbols, ihl, ihr]

/-- A code found below a node begins with the path to the node. -/
theorem prefix_of_mem_traverse {n : HuffmanNode} {path : Bits} {x : Byte × Bits} (hx : x ∈ traverse n path) :
    path <+: x.2 := by
  induction n generalizing path with
  | leaf s w =>
    obtain rfl := List.mem_singleton.1 hx
    exact List.prefix_rfl
  | internal w l r ihl ihr =>
    rcases List.mem_append.1 hx with hx | hx
    · exact (List.prefix_append path [false]).trans (ihl hx)
    · exact (List.prefix_append path [true]).trans (ihr hx)

/-- A code is as much longer than the path as there are internal nodes on its way, so by no more than all of them. -/
theorem length_le_of_mem_traverse {n : HuffmanNode} {path : Bits} {x : Byte × Bits} (hx : x ∈ traverse n path) :
    x.2.length ≤ path.length + n.internals := by
  induction n generalizing path with
  | leaf s w =>
    obtain rfl := List.mem_singleton.1 hx
    exact Nat.le_add_right _ _
  | internal w l r ihl ihr =>
    rw [HuffmanNode.internals]
    rcases List.mem_append.1 hx with hx | hx
    · have := ihl hx
      rw [List.length_append, List.length_singleton] at this
      omega
    · have := ihr hx
      rw [List.length_append, List.length_singleton] at this
      omega

/-- Codes below different children of a node differ at the bit after the path to the node. -/
theorem not_prefix_of_branches {path c d : Bits} {a b : Bool} (hab : a ≠ b) (hc : path ++ [a] <+: c)
    (hd : path ++ [b] <+: d) : ¬ c <+: d := by
  intro hcd
  have hpre : path ++ [a] <+: path ++ [b] := List.prefix_of_prefix_length_le (hc.trans hcd) hd (by simp)
  exact hab (by simpa using hpre)

theorem traverse_prefix_free {n : HuffmanNode} {path : Bits} {x y : Byte × Bits} (hx : x ∈ traverse n path)
    (hy : y ∈ traverse n path) (hxy : x.2 <+: y.2) : x = y := by
  induction n generalizing path with
  | leaf s w => rw [List.mem_singleton.1 hx, List.mem_singleton.1 hy]
  | internal w l r ihl ihr =>
    rcases List.mem_append.1 hx with hx | hx <;> rcases List.mem_append.1 hy with hy | hy
    · exact ihl hx hy
    · exact absurd hxy (not_prefix_of_branches (by decide) (prefix_of_mem_traverse hx) (prefix_of_mem_traverse hy))
    · exact absurd hxy (not_prefix_of_branches (by decide) (prefix_of_mem_traverse hx) (prefix_of_mem_traverse hy))
    · exact ihr hx hy

/-- The codes below a node share out exactly what the path to the node has of Kraft's sum. -/
theorem tableKraft_traverse {n : HuffmanNode} {path : Bits} (h : path.length + n.internals ≤ Config.lmax) :
    tableKraft (traverse n path) = 2 ^ (Config.lmax - path.length) := by
  induction n generalizing path with
  | leaf s w => exact tableKraft_singleton s path
  | internal w l r ihl ihr =>
    rw [HuffmanNode.internals] at h
    rw [traverse, tableKraft_append, ihl (by simp; omega), ihr (by simp; omega), List.length_append,
      List.length_append, List.length_singleton, List.length_singleton, ← two_mul, ← pow_succ']
    congr 1
    omega

/-! ## The table (R85, R87) -/

theorem codeTable_map_fst (root : HuffmanNode) : (codeTable root).map Prod.fst = root.symbols := by
  cases root with
  | leaf s w => rfl
  | internal w l r => exact traverse_map_fst _ []

/-- R88: `n` symbols have a tree of `n - 1` internal nodes, at most `LMAX` as there are 256 symbols. -/
theorem internals_le_lmax {root : HuffmanNode} (hnodup : root.symbols.Nodup) : root.internals ≤ Config.lmax := by
  have hle := (hnodup.subperm fun s _ => mem_allSymbols s).length_le
  rw [root.symbols_length, ← root.internals_add_one, allSymbols, List.length_map, List.length_range] at hle
  exact Nat.le_of_succ_le_succ hle

theorem codeTable_fits {root : HuffmanNode} (hnodup : root.symbols.Nodup) : TableFits (codeTable root) := by
  have hkeys : ((codeTable root).map Prod.fst).Nodup := by rwa [codeTable_map_fst]
  cases root with
  | leaf s w => exact ⟨hkeys, by simp [codeTable], by simp [codeTable, Config.lmax]⟩
  | internal w l r =>
    refine ⟨hkeys, fun x hx => ?_, fun x hx => ?_⟩
    · rcases List.mem_append.1 hx with hx | hx <;>
        exact (prefix_of_mem_traverse hx).ne_nil (List.cons_ne_nil _ _)
    · have hlen := length_le_of_mem_traverse hx
      rw [List.length_nil, Nat.zero_add] at hlen
      exact hlen.trans (internals_le_lmax hnodup)

/-- R88: a tree that branches is full. -/
theorem tableKraft_codeTable_internal {w : Nat} {l r : HuffmanNode}
    (hnodup : (HuffmanNode.internal w l r).symbols.Nodup) :
    tableKraft (codeTable (.internal w l r)) = 2 ^ Config.lmax :=
  tableKraft_traverse (path := []) (by simpa using internals_le_lmax hnodup)

theorem tableKraft_codeTable {root : HuffmanNode} (hnodup : root.symbols.Nodup) (htwo : 2 ≤ root.symbols.length) :
    tableKraft (codeTable root) = 2 ^ Config.lmax := by
  cases root with
  | leaf s w => exact absurd htwo (by simp [HuffmanNode.symbols])
  | internal w l r => exact tableKraft_codeTable_internal hnodup

theorem codeTable_prefixTable {root : HuffmanNode} (hnodup : root.symbols.Nodup) : PrefixTable (codeTable root) := by
  cases root with
  | leaf s w => exact ⟨by simp [codeTable], by simp [codeTable, Config.lmax]⟩
  | internal w l r =>
    exact ⟨fun x hx y hy => traverse_prefix_free hx hy, (tableKraft_codeTable_internal hnodup).le⟩

/-! ## The table of a buffer (R90) -/

/-- A buffer that is not empty has the table of a tree over its symbols. -/
theorem genTable_eq_codeTable {B : List Byte} (hB : B ≠ []) :
    ∃ root : HuffmanNode, genTable B = codeTable root ∧ root.symbols.Perm B.dedup := by
  obtain ⟨root, hroot, hsymbols, -, -⟩ := buildTree_frequencies hB
  cases B with
  | nil => exact absurd rfl hB
  | cons b bs => exact ⟨root, by rw [genTable, hroot], hsymbols⟩

/-- R88 (b): the symbols of the table are the distinct bytes of the buffer. -/
theorem genTable_map_fst (B : List Byte) : ((genTable B).map Prod.fst).Perm B.dedup := by
  by_cases hB : B = []
  · rw [hB]
    exact .refl _
  · obtain ⟨root, htable, hsymbols⟩ := genTable_eq_codeTable hB
    rwa [htable, codeTable_map_fst]

theorem genTable_fits (B : List Byte) : TableFits (genTable B) := by
  by_cases hB : B = []
  · rw [hB]
    exact ⟨List.nodup_nil, by simp [genTable], by simp [genTable]⟩
  · obtain ⟨root, htable, hsymbols⟩ := genTable_eq_codeTable hB
    exact htable ▸ codeTable_fits (hsymbols.nodup_iff.2 (List.nodup_dedup B))

theorem genTable_prefixTable (B : List Byte) : PrefixTable (genTable B) := by
  by_cases hB : B = []
  · rw [hB]
    exact ⟨by simp [genTable], Nat.zero_le _⟩
  · obtain ⟨root, htable, hsymbols⟩ := genTable_eq_codeTable hB
    exact htable ▸ codeTable_prefixTable (hsymbols.nodup_iff.2 (List.nodup_dedup B))

theorem tableKraft_genTable {B : List Byte} (htwo : 2 ≤ B.dedup.length) :
    tableKraft (genTable B) = 2 ^ Config.lmax := by
  have hB : B ≠ [] := by
    rintro rfl
    exact absurd htwo (by decide)
  obtain ⟨root, htable, hsymbols⟩ := genTable_eq_codeTable hB
  rw [htable]
  exact tableKraft_codeTable (hsymbols.nodup_iff.2 (List.nodup_dedup B)) (hsymbols.length_eq ▸ htwo)

end Sys2Proof.Machine
end

section
/-! The image of a code table (R67, R90): the ROM holds exactly the table's codes, so what R88 says of the table R107
says of the image. -/

namespace Sys2Proof.Machine

/-! ## The entries -/

/-- The entry `imageOf` writes for a code; an empty code gives none. -/
def codeEntry (c : Bits) : Option RomEntry :=
  if c = [] then none else some ⟨BitVec.ofNat 8 c.length, BitVec.ofNat 255 (valOf c)⟩

theorem imageOf_eq_filterMap (t : List (Byte × Bits)) :
    imageOf t = allSymbols.filterMap (fun s => ((t.lookup s).bind codeEntry).map (s, ·)) := by
  rw [imageOf, allSymbols, List.filterMap_map]
  congr 1
  funext k
  rw [Function.comp_apply]
  cases t.lookup (BitVec.ofNat 8 k) with
  | none => rfl
  | some c => by_cases hc : c = [] <;> simp [codeEntry, hc]

theorem lookup_filterMap_pair {α β : Type} [DecidableEq α] (e : α → Option β) (l : List α) (a : α) :
    (l.filterMap (fun b => (e b).map (b, ·))).lookup a = if a ∈ l then e a else none := by
  induction l with
  | nil => rfl
  | cons b l ih =>
    by_cases hab : a = b
    · subst hab
      cases ha : e a <;> simp [ha, ih]
    · cases hb : e b <;> simp [hb, ih, hab, List.lookup_cons, beq_false_of_ne hab]

/-- R90: the entry of a symbol is that of its code in the table. -/
theorem romEntry_imageOf (t : List (Byte × Bits)) (s : Byte) :
    romEntry (imageOf t) s = ((t.lookup s).bind codeEntry).getD RomEntry.absent := by
  rw [romEntry, imageOf_eq_filterMap, lookup_filterMap_pair, if_pos (mem_allSymbols s)]

theorem romEntry_imageOf_of_not_mem {t : List (Byte × Bits)} {s : Byte} (h : s ∉ t.map Prod.fst) :
    romEntry (imageOf t) s = RomEntry.absent := by
  have hnone : t.lookup s = none := by
    rw [List.lookup_eq_none_iff]
    rintro x hx
    rw [bne_iff_ne]
    rintro rfl
    exact h (List.mem_map_of_mem hx)
  rw [romEntry_imageOf, hnone]
  rfl

theorem lookup_of_mem {t : List (Byte × Bits)} (hnodup : (t.map Prod.fst).Nodup) {x : Byte × Bits} (hx : x ∈ t) :
    t.lookup x.1 = some x.2 := by
  obtain ⟨u, v, rfl⟩ := List.append_of_mem hx
  refine List.lookup_eq_some_iff.2 ⟨u, v, rfl, fun y hy => ?_⟩
  rw [List.map_append, List.map_cons] at hnodup
  rw [bne_iff_ne]
  intro hxy
  exact List.disjoint_of_nodup_append hnodup (List.mem_map_of_mem hy) (hxy ▸ List.mem_cons_self)

namespace TableFits

variable {t : List (Byte × Bits)}

theorem romEntry_of_mem (h : TableFits t) {x : Byte × Bits} (hx : x ∈ t) :
    romEntry (imageOf t) x.1 = ⟨BitVec.ofNat 8 x.2.length, BitVec.ofNat 255 (valOf x.2)⟩ := by
  rw [romEntry_imageOf, lookup_of_mem h.nodup hx, Option.bind_some, codeEntry, if_neg (h.ne_nil x hx),
    Option.getD_some]

theorem romLen_of_mem (h : TableFits t) {x : Byte × Bits} (hx : x ∈ t) : romLen (imageOf t) x.1 = x.2.length := by
  have hlen := h.length_le x hx
  rw [Config.lmax] at hlen
  rw [romLen, h.romEntry_of_mem hx, BitVec.toNat_ofNat]
  exact Nat.mod_eq_of_lt (by omega)

/-- The value of a code fits the 255 bits of `BITS` (R100). -/
theorem bits_of_mem (h : TableFits t) {x : Byte × Bits} (hx : x ∈ t) :
    (romEntry (imageOf t) x.1).bits.toNat = valOf x.2 := by
  rw [h.romEntry_of_mem hx, BitVec.toNat_ofNat]
  exact Nat.mod_eq_of_lt ((valOf_lt x.2).trans_le (Nat.pow_le_pow_right two_pos (h.length_le x hx)))

/-- R101: the ROM gives back the code. -/
theorem romCode_of_mem (h : TableFits t) {x : Byte × Bits} (hx : x ∈ t) : romCode (imageOf t) x.1 = x.2 := by
  rw [romCode, h.romLen_of_mem hx, h.bits_of_mem hx, bitsOf_valOf]

/-! ## The predicates of R102 to R107 -/

theorem present_iff (h : TableFits t) (s : Byte) : Present (imageOf t) s ↔ s ∈ t.map Prod.fst := by
  by_cases hs : s ∈ t.map Prod.fst
  · obtain ⟨x, hx, rfl⟩ := List.mem_map.1 hs
    have hlen : x.2.length ≠ 0 := fun h0 => h.ne_nil x hx (List.length_eq_zero_iff.1 h0)
    simpa [Present, h.romLen_of_mem hx, hlen] using hs
  · simp [Present, romLen, romEntry_imageOf_of_not_mem hs, RomEntry.absent, hs]

theorem presentSyms_perm (h : TableFits t) : (presentSyms (imageOf t)).Perm (t.map Prod.fst) := by
  rw [List.perm_ext_iff_of_nodup (presentSyms_nodup _) h.nodup]
  intro s
  rw [mem_presentSyms, h.present_iff]

theorem nCodes_eq (h : TableFits t) : nCodes (imageOf t) = (t.map Prod.fst).length := h.presentSyms_perm.length_eq

theorem kraftSum_eq (h : TableFits t) : kraftSum (imageOf t) = tableKraft t := by
  rw [kraftSum, (h.presentSyms_perm.map _).sum_nat, List.map_map, tableKraft]
  congr 1
  exact List.map_congr_left fun x hx => by rw [Function.comp_apply, h.romLen_of_mem hx]

theorem canonical (h : TableFits t) : Canonical (imageOf t) := by
  intro s
  by_cases hs : s ∈ t.map Prod.fst
  · obtain ⟨x, hx, rfl⟩ := List.mem_map.1 hs
    have hlen : (romEntry (imageOf t) x.1).len.toNat = x.2.length := h.romLen_of_mem hx
    rw [CanonicalEntry, h.bits_of_mem hx, hlen]
    exact valOf_lt x.2
  · rw [romEntry_imageOf_of_not_mem hs]
    exact Nat.two_pow_pos _

theorem prefixFree (h : TableFits t) (hp : PrefixTable t) : PrefixFree (imageOf t) := by
  intro s u hs hu hne hpre
  obtain ⟨x, hx, rfl⟩ := List.mem_map.1 ((h.present_iff s).1 hs)
  obtain ⟨y, hy, rfl⟩ := List.mem_map.1 ((h.present_iff u).1 hu)
  rw [h.romCode_of_mem hx, h.romCode_of_mem hy] at hpre
  exact hne (congrArg Prod.fst (hp.prefix_free x hx y hy hpre))

end TableFits

/-- Settles O52: each clause is one of the table of the buffer, carried to the image. -/
theorem generatedImagesArePrefixFreeAndCover : Obligations.GeneratedImagesArePrefixFreeAndCover := by
  intro B
  have hfits := genTable_fits B
  have hprefix := genTable_prefixTable B
  have hsymbols := genTable_map_fst B
  refine ⟨imageOf_wf _ hfits.length_le, hfits.canonical, hfits.prefixFree hprefix, ?_, fun b => ?_, ?_, fun htwo => ?_⟩
  · exact hfits.kraftSum_eq.trans_le hprefix.kraft
  · exact (hfits.present_iff b).trans (hsymbols.mem_iff.trans List.mem_dedup)
  · exact hfits.nCodes_eq.trans hsymbols.length_eq
  · exact hfits.kraftSum_eq.trans (tableKraft_genTable htwo)

end Sys2Proof.Machine
end

section
/-! Prefix-free images (R107): no two present symbols share a code, and the codes are uniquely decodable, so that
Mathlib's Kraft-McMillan inequality bounds Kraft's sum. -/

namespace Sys2Proof.Machine

open InformationTheory (UniquelyDecodable kraft_mcmillan_inequality)

/-! ## Bit strings none of which starts another -/

/-- A set of non-empty bit strings none of which is the start of another: reading from the left finds each in turn. -/
theorem uniquelyDecodable_of_prefix_free {S : Set Bits} (hne : [] ∉ S) (hpre : ∀ c ∈ S, ∀ d ∈ S, c <+: d → c = d) :
    UniquelyDecodable S := by
  intro cs
  induction cs with
  | nil =>
    intro ds _ hds hflat
    cases ds with
    | nil => rfl
    | cons d ds =>
      obtain ⟨rfl, -⟩ := List.append_eq_nil_iff.1 hflat.symm
      exact absurd (hds _ List.mem_cons_self) hne
  | cons c cs ih =>
    intro ds hcs hds hflat
    obtain ⟨hc, hcs⟩ := List.forall_mem_cons.1 hcs
    cases ds with
    | nil =>
      obtain ⟨rfl, -⟩ := List.append_eq_nil_iff.1 hflat
      exact absurd hc hne
    | cons d ds =>
      obtain ⟨hd, hds'⟩ := List.forall_mem_cons.1 hds
      rw [List.flatten_cons, List.flatten_cons] at hflat
      have hcd : c = d := by
        rcases List.prefix_or_prefix_of_prefix (List.prefix_append c cs.flatten) (hflat ▸ List.prefix_append d _)
          with h | h
        · exact hpre c hc d hd h
        · exact (hpre d hd c hc h).symm
      subst hcd
      rw [ih ds hcs hds' (List.append_cancel_left hflat)]

/-- Kraft's inequality in whole numbers, for codes of at most `n` bits. -/
theorem sum_two_pow_le_of_uniquelyDecodable {S : Finset Bits} (h : UniquelyDecodable (S : Set Bits)) {n : Nat}
    (hlen : ∀ c ∈ S, c.length ≤ n) : ∑ c ∈ S, 2 ^ (n - c.length) ≤ 2 ^ n := by
  have hscale : ∀ c ∈ S, (2 : ℝ) ^ (n - c.length) = 2 ^ n * (1 / 2) ^ c.length := by
    intro c hc
    rw [pow_sub₀ _ two_ne_zero (hlen c hc), one_div, inv_pow]
  have hkraft := kraft_mcmillan_inequality h
  rw [Fintype.card_bool, Nat.cast_two] at hkraft
  have hreal : ∑ c ∈ S, (2 : ℝ) ^ (n - c.length) ≤ 2 ^ n := by
    rw [Finset.sum_congr rfl hscale, ← Finset.mul_sum]
    exact mul_le_of_le_one_right (by positivity) hkraft
  exact_mod_cast hreal

/-! ## The codes of an image -/

/-- The codes of the present symbols, as a set. -/
def codeSet (img : Image) : Finset Bits := ((presentSyms img).map (romCode img)).toFinset

theorem mem_codeSet {img : Image} {c : Bits} : c ∈ codeSet img ↔ ∃ s, Present img s ∧ romCode img s = c := by
  simp [codeSet]

/-- Where no code occurs twice, Kraft's sum runs over the codes. -/
theorem kraftSum_eq_sum_codeSet {img : Image} (hd : Distinct img) :
    kraftSum img = ∑ c ∈ codeSet img, 2 ^ (Config.lmax - c.length) := by
  simp only [codeSet, List.sum_toFinset _ hd, kraftSum, List.map_map, Function.comp_def, romCode_length]

theorem PrefixFree.distinct {img : Image} (h : PrefixFree img) : Distinct img := by
  rw [distinct_iff]
  intro s t hs ht hst
  by_contra hne
  exact h s t hs ht hne (hst ▸ List.prefix_rfl)

theorem PrefixFree.uniquelyDecodable {img : Image} (h : PrefixFree img) :
    UniquelyDecodable (codeSet img : Set Bits) := by
  refine uniquelyDecodable_of_prefix_free ?_ ?_ <;> simp only [Finset.mem_coe, mem_codeSet]
  · rintro ⟨s, hs, hnil⟩
    exact romCode_ne_nil hs hnil
  · rintro _ ⟨s, hs, rfl⟩ _ ⟨t, ht, rfl⟩ hst
    by_contra hne
    exact h s t hs ht (fun heq => hne (heq ▸ rfl)) hst

theorem PrefixFree.kraft {img : Image} (h : PrefixFree img) : Kraft img := by
  rw [Kraft, kraftSum_eq_sum_codeSet h.distinct]
  refine sum_two_pow_le_of_uniquelyDecodable h.uniquelyDecodable fun c hc => ?_
  obtain ⟨s, -, rfl⟩ := mem_codeSet.1 hc
  exact (romCode_length img s).trans_le (romLen_le img s)

/-- Settles O25: equal codes start each other, and the codes, none of which starts another, are uniquely decodable. -/
theorem prefixFreeImagesAreDistinctAndMeetKraft : Obligations.PrefixFreeImagesAreDistinctAndMeetKraft :=
  fun _ h => ⟨h.distinct, h.kraft⟩

end Sys2Proof.Machine
end

section
/-! What the ROM primitives and the derived quantities answer (R101, R104 to R106), in the words of their rules. -/

namespace Sys2Proof.Machine

/-! ## Codes -/

/-- Settles O22: a code is the numeral of `LEN` bits of `BITS`. -/
theorem codeBitsAreRightJustified : Obligations.CodeBitsAreRightJustified :=
  fun img s => ⟨romCode_length img s, fun i hi => bitsOf_getElem? _ _ i hi⟩

/-! ## `RomMatch` -/

/-- A symbol with a code of at least one bit is present, so the set `M` of R104 needs no more than its own words. -/
theorem mem_romCandidates_of_pos {img : Image} {L : Nat} (hL : 1 ≤ L) {p : Bits} {s : Byte} :
    s ∈ romCandidates img L p ↔ romLen img s = L ∧ romCode img s = p := by
  rw [mem_romCandidates]
  exact and_iff_right_of_imp fun h => Nat.pos_iff_ne_zero.1 (h.1 ▸ hL)

theorem romCandidates_nodup (img : Image) (L : Nat) (p : Bits) : (romCandidates img L p).Nodup :=
  (presentSyms_nodup img).filter _

/-- Everything `RomMatch` can answer (R104): no candidate, the one candidate, or unspecified because of two. -/
theorem romMatch_cases (img : Image) (L : Nat) (p : Bits) :
    (romMatch img L p = .none ∧ ∀ s, s ∉ romCandidates img L p) ∨
    (∃ a, romMatch img L p = .some a ∧ ∀ s, s ∈ romCandidates img L p ↔ s = a) ∨
    (∃ a b, romMatch img L p = .unspecified ∧ a ≠ b ∧ a ∈ romCandidates img L p ∧ b ∈ romCandidates img L p) := by
  have hnodup := romCandidates_nodup img L p
  rw [romMatch]
  generalize romCandidates img L p = C at hnodup ⊢
  rcases C with _ | ⟨a, _ | ⟨b, r⟩⟩
  · exact .inl ⟨rfl, fun _ => List.not_mem_nil⟩
  · exact .inr (.inl ⟨a, rfl, fun _ => List.mem_singleton⟩)
  · have hab : a ≠ b := fun h => (List.nodup_cons.1 hnodup).1 (h ▸ List.mem_cons_self)
    exact .inr (.inr ⟨a, b, rfl, hab, List.mem_cons_self, List.mem_cons_of_mem _ List.mem_cons_self⟩)

/-- Settles O23: each answer comes with its own number of candidates. -/
theorem romMatchComparesEveryEntryOfTheLength : Obligations.RomMatchComparesEveryEntryOfTheLength := by
  intro img L p hL _ M
  have hM : ∀ s, s ∈ romCandidates img L p ↔ M s := fun s => mem_romCandidates_of_pos hL
  have hcases := romMatch_cases img L p
  simp only [hM] at hcases
  obtain ⟨hm, hnone⟩ | ⟨a, hm, hone⟩ | ⟨a, b, hm, hab, ha, hb⟩ := hcases <;> rw [hm]
  · simp [hnone]
  · refine ⟨?_, fun s => ?_, ?_⟩
    · simp [hone]
    · simp [hone, eq_comm]
    · simp [hone]
  · refine ⟨iff_of_false nofun fun h => h a ha, fun s => iff_of_false nofun ?_, iff_of_true rfl ⟨a, b, hab, ha, hb⟩⟩
    rintro ⟨-, honly⟩
    exact hab ((honly a ha).trans (honly b hb).symm)

/-! ## `MAXLEN` and `NCODES` -/

theorem exists_romLen_eq_maxLen (img : Image) : ∃ s, romLen img s = maxLen img := by
  have hmem : maxLen img ∈ 0 :: (presentSyms img).map (romLen img) := List.max?_mem List.max?_cons'
  rcases List.mem_cons.1 hmem with hzero | hmem
  · exact ⟨0, le_antisymm (romLen_le_maxLen img 0) (hzero ▸ Nat.zero_le _)⟩
  · obtain ⟨s, -, hs⟩ := List.mem_map.1 hmem
    exact ⟨s, hs⟩

theorem presentSyms_perm_filter (img : Image) :
    (presentSyms img).Perm (allSymbols.filter (fun s => Present img s)) := by
  rw [List.perm_ext_iff_of_nodup (presentSyms_nodup img) (allSymbols_nodup.filter _)]
  intro s
  simp [mem_allSymbols]

/-- Settles O24: `MAXLEN` is a maximum over the list of lengths and 0, and the present symbols are those among all. -/
theorem maxlenAndNcodesOfTheImage : Obligations.MaxlenAndNcodesOfTheImage := by
  refine fun img => ⟨romLen_le_maxLen img, exists_romLen_eq_maxLen img, ?_⟩
  rw [nCodes, (presentSyms_perm_filter img).length_eq, allSymbols, List.filter_map, List.length_map]
  rfl

end Sys2Proof.Machine
end

section
/-! Where commands stop (R110, R203): only a decode command of a session does, and only on an image that fails
`Distinct`. -/

namespace Sys2Proof.Machine

theorem withDistinct_of_not_distinct {s : State} (hd : ¬ Distinct s.params.rom) (r : Result) :
    withDistinct s r = .refused .ambiguousImage :=
  if_neg hd

theorem exec_decStart_of_fits {n : Nat} {s : State} (hn : n < 2 ^ s.params.cntw) :
    exec (.decStart n) s = withDistinct s (respond .ok 0 (s.setDec (openDecoder n))) :=
  if_pos (decide_eq_true hn)

section
variable {i : Instr} (hi : i.unit? = some .dec) {s : State}
include hi

/-- Each legal command of DEC stands behind the premise of R110. -/
theorem exec_dec_of_not_distinct (hwf : i.wf s.params.cntw = true) (hlegal : legalByPhase i s = true)
    (hd : ¬ Distinct s.params.rom) : exec i s = .refused .ambiguousImage := by
  cases i with
  | encStart | encPut | encEnd | rdreg | rst => cases hi
  | decStart n => exact (exec_decStart_of_fits (of_decide_eq_true hwf)).trans (withDistinct_of_not_distinct hd _)
  | decPut p => exact (if_pos hlegal).trans (withDistinct_of_not_distinct hd _)
  | decEnd => exact (if_pos hlegal).trans (withDistinct_of_not_distinct hd _)

/-- A command of DEC without a legal word is a DEC_START whose count does not fit its field (log 13). -/
theorem exec_dec_of_not_wf (hwf : i.wf s.params.cntw ≠ true) : exec i s = illegalCommand s := by
  cases i with
  | encStart | encPut | encEnd | rdreg | rst => cases hi
  | decStart n => exact if_neg hwf
  | decPut | decEnd => exact absurd rfl hwf

end

/-- Settles O15: a count that fits makes a well-formed command, and phase ACTIVE makes the other two legal. -/
theorem decodeSessionsAreRefusedOnAnAmbiguousImage : Obligations.DecodeSessionsAreRefusedOnAnAmbiguousImage := by
  refine fun s hd => ⟨fun n hn => exec_dec_of_not_distinct rfl (decide_eq_true hn) rfl hd, fun hp => ?_⟩
  have hlegal : sessionOpen s.dec.flags.phase = true := (sessionOpen_eq_true _).2 hp
  exact ⟨fun p => exec_dec_of_not_distinct rfl rfl hlegal hd, exec_dec_of_not_distinct rfl rfl hlegal hd⟩

theorem exec_completes_of_not_dec {i : Instr} (hi : i.unit? ≠ some .dec) (s : State) : ∃ t, exec i s = .next t := by
  cases i with
  | encStart => exact ⟨_, rfl⟩
  | encPut b => exact execEncPut_completes b s
  | encEnd => exact execEncEnd_completes s
  | rdreg r => exact execRdreg_completes r s
  | rst => exact ⟨_, rfl⟩
  | decStart | decPut | decEnd => exact absurd rfl hi

/-- Everything that can become of a command: a next state, or the refusal of R110. -/
theorem exec_completes_or_refuses (i : Instr) (s : State) :
    (∃ t, exec i s = .next t) ∨
    (exec i s = .refused .ambiguousImage ∧ ¬ Distinct s.params.rom ∧ i.unit? = some .dec) := by
  by_cases hd : Distinct s.params.rom
  · exact .inl (exec_completes hd i)
  by_cases hi : i.unit? = some .dec
  · by_cases hwf : i.wf s.params.cntw = true
    · by_cases hlegal : legalByPhase i s = true
      · exact .inr ⟨exec_dec_of_not_distinct hi hwf hlegal hd, hd, hi⟩
      · exact .inl ⟨_, exec_of_not_legalByPhase (eq_false_of_ne_true hlegal)⟩
    · exact .inl ⟨_, exec_dec_of_not_wf hi hwf⟩
  · exact .inl (exec_completes_of_not_dec hi s)

/-- Settles O9: the two things that can become of a command are no fault, and one of them is the refusal named. -/
theorem everyCommandCompletesOnADistinctImage : Obligations.EveryCommandCompletesOnADistinctImage := by
  intro i s
  refine ⟨fun hd => exec_completes hd i, fun f hf => ?_, fun r hr => ?_⟩ <;>
    obtain ⟨t, ht⟩ | ⟨hrefused, hwhen⟩ := exec_completes_or_refuses i s
  · cases hf.symm.trans ht
  · cases hf.symm.trans hrefused
  · cases hr.symm.trans ht
  · exact ⟨Host.Outcome.refused.inj (hr.symm.trans hrefused), hwhen⟩

end Sys2Proof.Machine
end

section
/-! Sessions on an image without symbols (R109): nothing can be encoded, no bit can be decoded. -/

namespace Sys2Proof.Machine

/-! ## The commands on such an image -/

theorem exec_encPut_of_absent {b : Byte} {s : State} (hp : s.enc.flags.phase = .active)
    (hb : ¬ Present s.params.rom b) : exec (.encPut b) s = raise .enc .byteNotInTable b.toNat s := by
  simp only [exec, execEncPut, (sessionOpen_eq_true _).2 hp, if_true, (romLookup_eq_none _ _).2 hb, byteValue]

theorem exec_decPut_of_malformed {p : Byte} {s : State} {d : Decoder} (hp : s.dec.flags.phase = .active)
    (hd : Distinct s.params.rom) (hbits : decBits s.params.rom s.dec (byteBits p) = .malformed d) :
    exec (.decPut p) s = raise .dec .malformed (d.pos - d.plen) (s.setDec d) := by
  simp only [exec, execDecPut, (sessionOpen_eq_true _).2 hp, if_true, withDistinct_of_distinct hd, hbits]

theorem exec_decEnd_of_exhausted {s : State} (hp : s.dec.flags.phase = .active) (hd : Distinct s.params.rom)
    (hpos : s.dec.nbits ≤ s.dec.pos) (hplen : s.dec.plen = 0) :
    exec .decEnd s = respond .ok s.dec.nout (s.setDec (s.dec.setFlags (doneFlags s.dec.flags))) := by
  simp only [exec, execDecEnd, (sessionOpen_eq_true _).2 hp, if_true, withDistinct_of_distinct hd, hplen,
    not_lt.2 hpos, ne_eq, not_true_eq_false, or_self, if_false]

/-- With `MAXLEN` bits pending the next valid bit is malformed (R133). -/
theorem decBits_cons_of_plen_eq_maxLen {img : Image} {d : Decoder} {b : Bool} {bs : Bits} (hpos : d.pos < d.nbits)
    (hplen : d.plen = maxLen img) : decBits img d (b :: bs) = .malformed d := by
  simp only [decBits, hpos, if_true, decBit, hplen]

section
variable {img : Image} (h : ∀ b, ¬ Present img b)
include h

theorem distinct_of_no_symbol : Distinct img :=
  (distinct_iff img).2 fun s _ hs => absurd hs (h s)

theorem maxLen_of_no_symbol : maxLen img = 0 := by
  obtain ⟨s, hs⟩ := exists_romLen_eq_maxLen img
  exact hs.symm.trans (not_not.1 (h s))

end

/-! ## The sessions -/

theorem execAll_pair {i j : Instr} {s t : State} (hi : exec i s = .next t) : execAll [i, j] s = exec j t := by
  rw [execAll_cons, hi, andThen, execAll_cons]
  cases exec j t <;> rfl

theorem exec_decStart_of_no_symbol {n : Nat} {s : State} (h : ∀ b, ¬ Present s.params.rom b)
    (hn : n < 2 ^ s.params.cntw) :
    exec (.decStart n) s = .next ((s.setDec (openDecoder n)).setResp ⟨.ok, 0⟩) := by
  rw [exec_decStart_of_fits hn, withDistinct_of_distinct (distinct_of_no_symbol h), respond]

/-- Settles O26: each session is its start and one command, which finds no code and no bit it could use. -/
theorem theEmptyImageEncodesAndDecodesNothing : Obligations.TheEmptyImageEncodesAndDecodesNothing := by
  intro s h
  have hd : Distinct s.params.rom := distinct_of_no_symbol h
  have hopen : exec .encStart s = .next ((s.setEnc openEncoder).setResp ⟨.ok, 0⟩) := rfl
  refine ⟨⟨_, (execAll_pair hopen).trans rfl, rfl, rfl⟩, fun b => ?_, ?_, fun n p hn hfits => ?_⟩
  · exact ⟨_, (execAll_pair hopen).trans (exec_encPut_of_absent rfl (h b)), rfl⟩
  · have hstart := exec_decStart_of_no_symbol h (Nat.two_pow_pos _)
    exact ⟨_, (execAll_pair hstart).trans (exec_decEnd_of_exhausted rfl hd le_rfl rfl), rfl, rfl⟩
  · have hstart := exec_decStart_of_no_symbol h hfits
    have hbits : decBits s.params.rom (openDecoder n) (byteBits p) = .malformed (openDecoder n) :=
      decBits_cons_of_plen_eq_maxLen hn (maxLen_of_no_symbol h).symm
    exact ⟨_, (execAll_pair hstart).trans (exec_decPut_of_malformed rfl hd hbits), rfl⟩

end Sys2Proof.Machine
end

section
/-! The commands of ENC, one equation for each of their cases (R116 to R118), and the pending bits of the unit: what
the accumulator holds of the stream of codes, and that flushing it completes the packed stream. -/

namespace Sys2Proof.Machine

/-! ## ENC_START and ENC_PUT -/

/-- The block `s` with unit ENC at `e`, having answered the unit's bit count: what the accepted commands of an encode
session up to ENC_END leave (R116, R117). -/
def State.encodedTo (s : State) (e : Encoder) : State := (s.setEnc e).setResp ⟨.ok, e.nbits⟩

@[simp] theorem State.encodedTo_params (s : State) (e : Encoder) : (s.encodedTo e).params = s.params := rfl
@[simp] theorem State.encodedTo_enc (s : State) (e : Encoder) : (s.encodedTo e).enc = e := rfl
@[simp] theorem State.encodedTo_dec (s : State) (e : Encoder) : (s.encodedTo e).dec = s.dec := rfl
@[simp] theorem State.encodedTo_encodedTo (s : State) (e e' : Encoder) :
    (s.encodedTo e).encodedTo e' = s.encodedTo e' := rfl

theorem exec_encStart (s : State) : exec .encStart s = .next (s.encodedTo openEncoder) :=
  (execEncStart_next s _).2 rfl

theorem exec_encPut_of_not_active {b : Byte} {s : State} (hp : s.enc.flags.phase ≠ .active) :
    exec (.encPut b) s = illegalCommand s :=
  exec_of_not_legalByPhase ((sessionOpen_eq_false _).2 hp)

section
variable {b : Byte} {c : Bits} {s : State} (hp : s.enc.flags.phase = .active)
  (hc : romLookup s.params.rom b = some c)
include hp hc

theorem exec_encPut_of_overflow (hover : 2 ^ s.params.cntw - 1 < s.enc.nbits + c.length) :
    exec (.encPut b) s = raise .enc .countOverflow b.toNat s := by
  simp only [exec, execEncPut, (sessionOpen_eq_true _).2 hp, if_true, hc, if_pos hover, byteValue]

theorem exec_encPut_of_fits (hfit : s.enc.nbits + c.length ≤ 2 ^ s.params.cntw - 1) :
    exec (.encPut b) s = .next (s.encodedTo (appendCode s.enc c)) := by
  simp only [exec, execEncPut, (sessionOpen_eq_true _).2 hp, if_true, hc, if_neg (not_lt.2 hfit)]
  rfl

end

/-- Settles O11: ENC_START has one case. -/
theorem encStartOpensASession : Obligations.EncStartOpensASession := exec_encStart

/-- Settles O12: the cases of ENC_PUT, and the loop over the code's bits in closed form. -/
theorem encPutAppendsTheCode : Obligations.EncPutAppendsTheCode := by
  refine fun s b => ⟨exec_encPut_of_not_active, fun hp hb => ?_, fun c hp hc hover => ?_, fun c hp hc hfit hacc => ?_⟩
  · exact exec_encPut_of_absent hp ((romLookup_eq_none _ _).1 hb)
  · exact exec_encPut_of_overflow hp hc hover
  · intro all full
    rw [exec_encPut_of_fits hp hc hfit, appendCode, pushBits_closed s.enc c hacc]
    rfl

/-! ## ENC_END and the pending bits -/

/-- The bits of the stream that wait in the accumulator (R13). -/
def Encoder.pending (e : Encoder) : Bits := bitsOf e.nacc.val e.acc.toNat

@[simp] theorem Encoder.pending_length (e : Encoder) : e.pending.length = e.nacc.val := bitsOf_length _ _

/-- Fewer than eight bits pass through the accumulator unchanged. -/
theorem bitsOf_acc_valOf {T : Bits} {n : Nat} (hn : T.length = n) (h : n < 8) :
    bitsOf n (BitVec.ofNat 8 (valOf T)).toNat = T := by
  subst hn
  have hlt : valOf T < 2 ^ 8 := (valOf_lt T).trans (Nat.pow_lt_pow_right (by decide) h)
  rw [BitVec.toNat_ofNat, Nat.mod_eq_of_lt hlt, bitsOf_valOf]

/-- ENC_END packs the pending bits, which are fewer than eight, into at most one byte (R118). -/
theorem flushAcc_closed {e : Encoder} (h : e.acc.toNat < 2 ^ e.nacc.val) :
    flushAcc e = { e with acc := 0, nacc := 0, out := e.out ++ pack e.pending } := by
  by_cases h0 : e.nacc = 0
  · have hnone : e.pending = [] := List.length_eq_zero_iff.1 (by rw [e.pending_length, h0]; rfl)
    rw [flushAcc, if_pos h0, hnone, pack_nil, List.append_nil]
  · have hsome : e.pending ≠ [] := fun hnil => h0 (Fin.ext (by rw [← e.pending_length, hnil]; rfl))
    have hval : valOf e.pending = e.acc.toNat := (valOf_bitsOf _ _).trans (Nat.mod_eq_of_lt h)
    rw [flushAcc, if_neg h0, pack_short _ (by rw [e.pending_length]; omega) hsome, hval, e.pending_length, emit]

theorem exec_encEnd_of_not_active {s : State} (hp : s.enc.flags.phase ≠ .active) :
    exec .encEnd s = illegalCommand s :=
  exec_of_not_legalByPhase ((sessionOpen_eq_false _).2 hp)

theorem exec_encEnd_of_active {s : State} (hp : s.enc.flags.phase = .active) :
    exec .encEnd s = .next ((s.setEnc ((flushAcc s.enc).setFlags (doneFlags s.enc.flags))).setResp
      (if s.enc.nbits = 0 then ⟨.nothing, 0⟩ else ⟨.ok, s.enc.nbits⟩)) := by
  obtain ⟨t, ht⟩ : ∃ t, exec .encEnd s = .next t := execEncEnd_completes s
  obtain ⟨hnot, -⟩ | ⟨-, rfl⟩ := execEncEnd_next ht
  · exact absurd hp hnot
  · exact ht

/-- Settles O13: the two cases of ENC_END, and the flush in closed form. -/
theorem encEndFlushesAndCloses : Obligations.EncEndFlushesAndCloses := by
  refine fun s => ⟨exec_encEnd_of_not_active, fun hp hacc => ?_⟩
  rw [exec_encEnd_of_active hp, flushAcc_closed hacc]
  rfl

/-- After the bits `S` the last bits, those beyond the full bytes, are pending (R117). -/
theorem pushBits_pending {e : Encoder} (S : Bits) (h : e.acc.toNat < 2 ^ e.nacc.val) :
    (pushBits e S).pending = (e.pending ++ S).drop (8 * ((e.pending ++ S).length / 8)) := by
  rw [Encoder.pending, pushBits_closed e S h]
  refine bitsOf_acc_valOf ?_ (Fin.isLt _)
  rw [List.length_drop, Fin.val_ofNat]
  exact Nat.sub_eq_of_eq_add' (Nat.div_add_mod _ 8).symm

/-- Flushing after the bits `S` completes the packed stream: the pending bits and `S`, packed (R119). -/
theorem flushAcc_pushBits_out {e : Encoder} (S : Bits) (h : e.acc.toNat < 2 ^ e.nacc.val) :
    (flushAcc (pushBits e S)).out = e.out ++ pack (e.pending ++ S) := by
  have hout : (pushBits e S).out = e.out ++ pack ((e.pending ++ S).take (8 * ((e.pending ++ S).length / 8))) :=
    congrArg Encoder.out (pushBits_closed e S h)
  have hfull : 8 ∣ ((e.pending ++ S).take (8 * ((e.pending ++ S).length / 8))).length := by
    rw [List.length_take]
    omega
  rw [flushAcc_closed (pushBits_acc_high e S h), hout, pushBits_pending S h, List.append_assoc,
    ← pack_append _ _ hfull, List.take_append_drop]

end Sys2Proof.Machine
end

section
/-! Encode sessions (R119, R120): the commands of ENCODE B push the concatenated codes of `B` through the accumulator,
up to the first byte without a code. -/

namespace Sys2Proof.Machine

/-! ## The batch function (R115) -/

theorem codeStream_cons_eq_ok {img : Image} {b : Byte} {B : List Byte} {S : Bits} :
    codeStream img (b :: B) = .ok S ↔
      ∃ c R, romLookup img b = some c ∧ codeStream img B = .ok R ∧ S = c ++ R := by
  rw [codeStream]
  rcases romLookup img b with _ | c
  · simp
  · rcases codeStream img B with _ | R <;> simp [eq_comm]

theorem codeStream_cons_eq_error {img : Image} {a b : Byte} {B : List Byte} :
    codeStream img (a :: B) = .error b ↔
      (¬ Present img a ∧ a = b) ∨ ∃ c, romLookup img a = some c ∧ codeStream img B = .error b := by
  rw [codeStream, ← romLookup_eq_none]
  rcases romLookup img a with _ | c
  · simp
  · rcases codeStream img B with _ | R <;> simp

/-- The byte reported is the first without a code (R115). -/
theorem codeStream_error_split {img : Image} {b : Byte} {B : List Byte} (h : codeStream img B = .error b) :
    ∃ B1 B2 S, B = B1 ++ b :: B2 ∧ codeStream img B1 = .ok S ∧ ¬ Present img b := by
  induction B with
  | nil => cases h
  | cons a B ih =>
    obtain ⟨habsent, rfl⟩ | ⟨c, hc, h⟩ := codeStream_cons_eq_error.1 h
    · exact ⟨[], B, [], rfl, rfl, habsent⟩
    · obtain ⟨B1, B2, S, rfl, hS, habsent⟩ := ih h
      exact ⟨a :: B1, B2, c ++ S, rfl, codeStream_cons_eq_ok.2 ⟨c, S, hc, hS, rfl⟩, habsent⟩

/-- R115: every code has a bit, so there is nothing to compress exactly in the empty input. -/
theorem codeStream_length_eq_zero {img : Image} {B : List Byte} {S : Bits} (h : codeStream img B = .ok S) :
    S.length = 0 ↔ B = [] := by
  cases B with
  | nil =>
    cases h
    simp
  | cons b B =>
    obtain ⟨c, R, hc, -, rfl⟩ := codeStream_cons_eq_ok.1 h
    have hlen := (romLookup_length hc).1
    rw [List.length_append]
    exact iff_of_false (by omega) (List.cons_ne_nil b B)

theorem encodeBatch_eq_ok {img : Image} {B : List Byte} {ps : PackedStream} :
    encodeBatch img B = .ok ps ↔ ∃ S, codeStream img B = .ok S ∧ ps = ⟨pack S, S.length⟩ := by
  rw [encodeBatch]
  rcases codeStream img B with _ | S <;> simp [eq_comm]

theorem encodeBatch_eq_error {img : Image} {B : List Byte} {b : Byte} :
    encodeBatch img B = .error b ↔ codeStream img B = .error b := by
  rw [encodeBatch]
  rcases codeStream img B with _ | S <;> simp

/-! ## An open session -/

/-- Unit ENC after `n` more bytes whose codes are `S` together. -/
def appendCodes (e : Encoder) (n : Nat) (S : Bits) : Encoder :=
  { pushBits e S with nbits := e.nbits + S.length, nsym := e.nsym + n }

@[simp] theorem appendCodes_flags (e : Encoder) (n : Nat) (S : Bits) : (appendCodes e n S).flags = e.flags :=
  pushBits_flags e S
@[simp] theorem appendCodes_nbits (e : Encoder) (n : Nat) (S : Bits) :
    (appendCodes e n S).nbits = e.nbits + S.length := rfl

/-- The loop of ENC_PUT neither reads nor writes the counters (R117). -/
theorem pushBits_with_counts (e : Encoder) (n k : Nat) (S : Bits) :
    pushBits { e with nbits := n, nsym := k } S = { pushBits e S with nbits := n, nsym := k } := by
  induction S generalizing e with
  | nil => rfl
  | cons b S ih =>
    have hbit : pushBit { e with nbits := n, nsym := k } b = { pushBit e b with nbits := n, nsym := k } := by
      simp only [pushBit]
      split <;> rfl
    rw [pushBits, List.foldl_cons, hbit]
    exact ih (pushBit e b)

/-- The code of one byte, then those of `n` more. -/
theorem appendCodes_appendCode (e : Encoder) (c : Bits) (n : Nat) (S : Bits) :
    appendCodes (appendCode e c) n S = appendCodes e (n + 1) (c ++ S) := by
  have hpush : pushBits (pushBits e c) S = pushBits e (c ++ S) := List.foldl_append.symm
  rw [appendCodes, appendCode, pushBits_with_counts, hpush, appendCodes, List.length_append]
  simp only [Encoder.mk.injEq, true_and, and_true]
  omega

/-- The ENC_PUTs of bytes that all have codes, in an open session that does not overflow. -/
theorem execAll_encPuts {s : State} {e : Encoder} {B : List Byte} {S : Bits} (active : e.flags.phase = .active)
    (hS : codeStream s.params.rom B = .ok S) (hfit : e.nbits + S.length ≤ 2 ^ s.params.cntw - 1) :
    execAll (B.map .encPut) (s.encodedTo e) = .next (s.encodedTo (appendCodes e B.length S)) := by
  induction B generalizing e S with
  | nil =>
    cases hS
    rfl
  | cons b B ih =>
    obtain ⟨c, R, hc, hR, rfl⟩ := codeStream_cons_eq_ok.1 hS
    rw [List.length_append] at hfit
    have hput : exec (.encPut b) (s.encodedTo e) = .next (s.encodedTo (appendCode e c)) :=
      exec_encPut_of_fits (s := s.encodedTo e) active hc (show e.nbits + c.length ≤ 2 ^ s.params.cntw - 1 by omega)
    have hrest := ih (e := appendCode e c) (by rw [appendCode_flags, active]) hR (by rw [appendCode_nbits]; omega)
    rw [appendCodes_appendCode] at hrest
    exact execAll_cons_eq_next.2 ⟨_, hput, hrest⟩

/-- ENC_START and the ENC_PUTs of bytes that all have codes, from any state (R119). -/
theorem execAll_encStart_encPuts {s : State} {B : List Byte} {S : Bits} (hS : codeStream s.params.rom B = .ok S)
    (hfit : S.length ≤ 2 ^ s.params.cntw - 1) :
    execAll (.encStart :: B.map .encPut) s = .next (s.encodedTo (appendCodes openEncoder B.length S)) :=
  execAll_cons_eq_next.2 ⟨_, exec_encStart s, execAll_encPuts rfl hS ((Nat.zero_add S.length).symm ▸ hfit)⟩

/-- R119: the session's registers in closed form. -/
theorem appendCodes_openEncoder (n : Nat) (S : Bits) :
    appendCodes openEncoder n S = ⟨⟨.active, none, 0⟩, BitVec.ofNat 8 (valOf (S.drop (8 * (S.length / 8)))),
      Fin.ofNat 8 S.length, S.length, n, pack (S.take (8 * (S.length / 8)))⟩ := by
  rw [appendCodes, pushBits_closed openEncoder S Nat.one_pos]
  exact congrArg₂ (Encoder.mk _ _ _ · · _) (Nat.zero_add _) (Nat.zero_add _)

/-! ## The end of a session -/

/-- Unit ENC after a whole session of `n` bytes whose codes are `S` together. -/
def encodedEncoder (n : Nat) (S : Bits) : Encoder :=
  (flushAcc (appendCodes openEncoder n S)).setFlags (doneFlags openFlags)

/-- R119: after ENC_END the stream is `Pack(S)`. -/
@[simp] theorem encodedEncoder_out (n : Nat) (S : Bits) : (encodedEncoder n S).out = pack S :=
  flushAcc_pushBits_out (e := openEncoder) S Nat.one_pos
@[simp] theorem encodedEncoder_flags (n : Nat) (S : Bits) : (encodedEncoder n S).flags = doneFlags openFlags := rfl
@[simp] theorem encodedEncoder_nbits (n : Nat) (S : Bits) : (encodedEncoder n S).nbits = S.length := Nat.zero_add _
@[simp] theorem encodedEncoder_nsym (n : Nat) (S : Bits) : (encodedEncoder n S).nsym = n := Nat.zero_add _

/-- ENC_END of a session of `n` bytes whose codes are `S` together (R118). -/
theorem exec_encEnd_encodedTo (s : State) (n : Nat) (S : Bits) :
    exec .encEnd (s.encodedTo (appendCodes openEncoder n S)) =
      .next ((s.setEnc (encodedEncoder n S)).setResp (if S.length = 0 then ⟨.nothing, 0⟩ else ⟨.ok, S.length⟩)) := by
  have hflags : (appendCodes openEncoder n S).flags = openFlags := appendCodes_flags _ _ _
  have hnbits : (appendCodes openEncoder n S).nbits = S.length := Nat.zero_add _
  rw [exec_encEnd_of_active (by rw [State.encodedTo_enc, hflags]; rfl), State.encodedTo_enc, hflags, hnbits]
  rfl

/-- Settles O43: the session pushes `S` through the accumulator, and ENC_END flushes it. -/
theorem encodeSessionClosedForm : Obligations.EncodeSessionClosedForm :=
  fun s B S hS hfit => ⟨_, _, execAll_encStart_encPuts hS hfit, appendCodes_openEncoder B.length S,
    exec_encEnd_encodedTo s B.length S, encodedEncoder_out B.length S⟩

/-! ## The session ENCODE B -/

theorem encodeCommands_append (B1 B2 : List Byte) :
    encodeCommands (B1 ++ B2) = (.encStart :: B1.map .encPut) ++ (B2.map .encPut ++ [.encEnd]) := by
  simp [encodeCommands]

theorem execAll_encodeCommands {s : State} {B : List Byte} {S : Bits} (hS : codeStream s.params.rom B = .ok S)
    (hfit : S.length ≤ 2 ^ s.params.cntw - 1) :
    execAll (encodeCommands B) s = .next ((s.setEnc (encodedEncoder B.length S)).setResp
      (if B = [] then ⟨.nothing, 0⟩ else ⟨.ok, S.length⟩)) := by
  have hend := exec_encEnd_encodedTo s B.length S
  simp only [codeStream_length_eq_zero hS] at hend
  exact execAll_append_eq_next.2
    ⟨_, execAll_encStart_encPuts hS hfit, execAll_cons_eq_next.2 ⟨_, hend, rfl⟩⟩

theorem legalByPhase_setResp (i : Instr) (s : State) (r : Response) :
    legalByPhase i (s.setResp r) = legalByPhase i s := by cases i <;> rfl

/-- Illegal commands change nothing, so a list of them answers as its last does (R166). -/
theorem execAll_of_not_legalByPhase {is : List Instr} {i : Instr} {s : State}
    (his : ∀ j ∈ is, legalByPhase j s = false) (hi : legalByPhase i s = false) :
    execAll (is ++ [i]) s = illegalCommand s := by
  induction is generalizing s with
  | nil => exact execAll_cons_eq_next.2 ⟨_, exec_of_not_legalByPhase hi, rfl⟩
  | cons j is ih =>
    have hlater : execAll (is ++ [i]) (s.setResp ⟨.illegalCmd, 0⟩) = illegalCommand s :=
      ih (fun k hk => (legalByPhase_setResp k s _).trans (his k (List.mem_cons_of_mem j hk)))
        ((legalByPhase_setResp i s _).trans hi)
    exact execAll_cons_eq_next.2 ⟨_, exec_of_not_legalByPhase (his j List.mem_cons_self), hlater⟩

/-- The commands of a session that is not open any more (R166, R170). -/
theorem execAll_encPuts_encEnd_of_not_active {s : State} (hp : s.enc.flags.phase ≠ .active) (B : List Byte) :
    execAll (B.map .encPut ++ [.encEnd]) s = illegalCommand s := by
  have hclosed : sessionOpen s.enc.flags.phase = false := (sessionOpen_eq_false _).2 hp
  refine execAll_of_not_legalByPhase (fun j hj => ?_) hclosed
  obtain ⟨b, -, rfl⟩ := List.mem_map.1 hj
  exact hclosed

/-- Settles O44: the session is accepted up to its end, or up to the first byte without a code, and is not open after
that byte. -/
theorem encodeSessionAgreesWithEncode : Obligations.EncodeSessionAgreesWithEncode := by
  refine fun s B => ⟨fun ps hps hfit => ?_, fun b hb => ?_⟩
  · obtain ⟨S, hS, rfl⟩ := encodeBatch_eq_ok.1 hps
    exact ⟨_, execAll_encodeCommands hS hfit, rfl, encodedEncoder_out _ S, encodedEncoder_nbits _ S,
      encodedEncoder_nsym _ S, rfl, rfl⟩
  · obtain ⟨B1, B2, S, rfl, hS, habsent⟩ := codeStream_error_split (encodeBatch_eq_error.1 hb)
    refine ⟨B1, B2, S, rfl, hS, habsent, fun hfit => ?_⟩
    have hopen := execAll_encStart_encPuts hS hfit
    have active : (s.encodedTo (appendCodes openEncoder B1.length S)).enc.flags.phase = .active := by
      rw [State.encodedTo_enc, appendCodes_flags]
      rfl
    have hraise := exec_encPut_of_absent active habsent
    have hsession := execAll_append_eq_next.2 ⟨_, hopen, execAll_cons_eq_next.2
      ⟨_, hraise, execAll_encPuts_encEnd_of_not_active (by simp) B2⟩⟩
    exact ⟨_, _, _, hopen, active, hraise, rfl, (congrArg (execAll · s) (encodeCommands_append B1 _)).trans hsession,
      rfl, rfl, rfl, rfl⟩

end Sys2Proof.Machine
end

section
/-! The greedy scan of R130: the match it takes at one place, and the two equations it satisfies: it leaves bits that no
code begins, and it reads a code that no other code begins as its symbol. -/

namespace Sys2Proof.Machine

/-! ## `RomMatch` and codes -/

theorem mem_romCandidates_of_romMatch {img : Image} {L : Nat} {p : Bits} {s : Byte} (h : romMatch img L p = .some s) :
    s ∈ romCandidates img L p := by
  obtain ⟨hm, -⟩ | ⟨a, hm, hone⟩ | ⟨a, b, hm, -⟩ := romMatch_cases img L p <;> cases hm.symm.trans h
  exact (hone s).2 rfl

theorem romMatch_eq_none {img : Image} {L : Nat} {p : Bits} (h : ∀ s, s ∉ romCandidates img L p) :
    romMatch img L p = .none := by
  obtain ⟨hm, -⟩ | ⟨a, -, hone⟩ | ⟨a, -, -, -, ha, -⟩ := romMatch_cases img L p
  · exact hm
  · exact absurd ((hone a).2 rfl) (h a)
  · exact absurd ha (h a)

/-- On a distinct image a candidate is the only one (R104, R110). -/
theorem romMatch_romCode {img : Image} (hd : Distinct img) {s : Byte} (hs : Present img s) :
    romMatch img (romCode img s).length (romCode img s) = .some s := by
  have hmem : s ∈ romCandidates img (romCode img s).length (romCode img s) :=
    (mem_romCandidates ..).2 ⟨hs, (romCode_length img s).symm, rfl⟩
  obtain ⟨-, hnone⟩ | ⟨a, hm, hone⟩ | ⟨a, b, hm, -⟩ := romMatch_cases img (romCode img s).length (romCode img s)
  · exact absurd hmem (hnone s)
  · rw [hm, (hone s).1 hmem]
  · exact absurd hm (romMatch_ne_unspecified hd _ _)

theorem romCode_length_le_maxLen (img : Image) (s : Byte) : (romCode img s).length ≤ maxLen img :=
  (romCode_length img s).trans_le (romLen_le_maxLen img s)

/-- The bits `V` begin with no code. -/
def NoCodeBegins (img : Image) (V : Bits) : Prop := ∀ s, Present img s → ¬ romCode img s <+: V

theorem NoCodeBegins.nil (img : Image) : NoCodeBegins img [] :=
  fun _ hs hpre => romCode_ne_nil hs (List.prefix_nil.1 hpre)

/-! ## The shortest match -/

/-- What the scan finds at length `L` (R130). -/
def matchAt (img : Image) (V : Bits) (L : Nat) : Option (Byte × Nat) :=
  match romMatch img L (V.take L) with
  | .some s => some (s, L)
  | .none => none
  | .unspecified => none

theorem matchAt_eq_some {img : Image} {V : Bits} {L L' : Nat} {s : Byte} :
    matchAt img V L = some (s, L') ↔ romMatch img L (V.take L) = .some s ∧ L = L' := by
  rw [matchAt]
  cases romMatch img L (V.take L) <;> simp

theorem matchAt_eq_none {img : Image} {V : Bits} {L : Nat} :
    matchAt img V L = none ↔ ∀ s, romMatch img L (V.take L) ≠ .some s := by
  rw [matchAt]
  cases romMatch img L (V.take L) <;> simp

theorem shortestMatch_eq_findSome? (img : Image) (V : Bits) :
    shortestMatch img V = (List.range' 1 (min V.length (maxLen img))).findSome? (matchAt img V) := rfl

/-- The first number from 1 to `n` at which `f` answers. -/
theorem findSome?_range'_one_eq_some {α : Type} {f : Nat → Option α} {n : Nat} {a : α} :
    (List.range' 1 n).findSome? f = some a ↔
      ∃ L, 1 ≤ L ∧ L ≤ n ∧ f L = some a ∧ ∀ L', 1 ≤ L' → L' < L → f L' = none := by
  induction n with
  | zero => simp
  | succ n ih =>
    rw [List.range'_1_concat, List.findSome?_append, Option.or_eq_some_iff, ih, List.findSome?_eq_none_iff]
    simp only [List.mem_range'_1, List.findSome?_singleton]
    constructor
    · rintro (⟨L, h1, hn, hL, hbefore⟩ | ⟨hnone, hlast⟩)
      · exact ⟨L, h1, Nat.le_succ_of_le hn, hL, hbefore⟩
      · exact ⟨1 + n, by omega, by omega, hlast, fun L' h1 hlt => hnone L' ⟨h1, hlt⟩⟩
    · rintro ⟨L, h1, hn, hL, hbefore⟩
      rcases Nat.lt_or_ge n L with hlast | hn'
      · obtain rfl : L = 1 + n := by omega
        exact .inr ⟨fun L' h => hbefore L' h.1 h.2, hL⟩
      · exact .inl ⟨L, h1, hn', hL, hbefore⟩

theorem shortestMatch_eq_some {img : Image} {V : Bits} {s : Byte} {L : Nat} :
    shortestMatch img V = some (s, L) ↔
      1 ≤ L ∧ L ≤ min V.length (maxLen img) ∧ romMatch img L (V.take L) = .some s ∧
        ∀ L' s', 1 ≤ L' → L' < L → romMatch img L' (V.take L') ≠ .some s' := by
  rw [shortestMatch_eq_findSome?, findSome?_range'_one_eq_some]
  simp only [matchAt_eq_some, matchAt_eq_none]
  constructor
  · rintro ⟨L, h1, hle, ⟨hm, rfl⟩, hbefore⟩
    exact ⟨h1, hle, hm, fun L' s' h1 hlt => hbefore L' h1 hlt s'⟩
  · rintro ⟨h1, hle, hm, hbefore⟩
    exact ⟨L, h1, hle, ⟨hm, rfl⟩, fun L' h1 hlt s' => hbefore L' s' h1 hlt⟩

theorem shortestMatch_eq_none {img : Image} {V : Bits} :
    shortestMatch img V = none ↔
      ∀ L s, 1 ≤ L → L ≤ min V.length (maxLen img) → romMatch img L (V.take L) ≠ .some s := by
  rw [shortestMatch_eq_findSome?, List.findSome?_eq_none_iff]
  simp only [List.mem_range'_1, Nat.lt_one_add_iff, matchAt_eq_none, and_imp]
  exact ⟨fun h L s h1 hle => h L h1 hle s, fun h L h1 hle s => h L s h1 hle⟩

/-- Settles O46: the scan asks for the lengths from 1 on in turn. -/
theorem shortestMatchIsTheSmallestLength : Obligations.ShortestMatchIsTheSmallestLength :=
  fun _ _ => ⟨fun _ _ => shortestMatch_eq_some, shortestMatch_eq_none⟩

/-- A match is a code that the bits begin with. -/
theorem prefix_of_romMatch_take {img : Image} {V : Bits} {L : Nat} {s : Byte}
    (h : romMatch img L (V.take L) = .some s) : Present img s ∧ romLen img s = L ∧ romCode img s <+: V := by
  obtain ⟨hs, hlen, hcode⟩ := (mem_romCandidates ..).1 (mem_romCandidates_of_romMatch h)
  exact ⟨hs, hlen, hcode ▸ List.take_prefix L V⟩

theorem NoCodeBegins.shortestMatch {img : Image} {V : Bits} (h : NoCodeBegins img V) : shortestMatch img V = none := by
  refine shortestMatch_eq_none.2 fun L s _ _ hm => ?_
  obtain ⟨hs, -, hpre⟩ := prefix_of_romMatch_take hm
  exact h s hs hpre

/-- No code but that of `s` itself begins the code of `s`. -/
def BegunByNoOther (img : Image) (s : Byte) : Prop :=
  ∀ t, Present img t → romCode img t <+: romCode img s → t = s

theorem PrefixFree.begunByNoOther {img : Image} (h : PrefixFree img) {s : Byte} (hs : Present img s) :
    BegunByNoOther img s := by
  intro t ht hpre
  by_contra hne
  exact h t s ht hs hne hpre

theorem shortestMatch_romCode_append {img : Image} (hd : Distinct img) {s : Byte} (hs : Present img s)
    (hfirst : BegunByNoOther img s) (V : Bits) :
    shortestMatch img (romCode img s ++ V) = some (s, (romCode img s).length) := by
  refine shortestMatch_eq_some.2 ⟨List.length_pos_iff.2 (romCode_ne_nil hs), ?_, ?_, fun L t _ hlt hm => ?_⟩
  · rw [List.length_append]
    exact le_min (Nat.le_add_right _ _) (romCode_length_le_maxLen img s)
  · rw [List.take_left]
    exact romMatch_romCode hd hs
  · obtain ⟨ht, hlen, hpre⟩ := prefix_of_romMatch_take hm
    rw [romCode_length] at hlt
    obtain rfl : t = s := hfirst t ht (List.prefix_of_prefix_length_le hpre (List.prefix_append _ V) (by simp; omega))
    omega

/-! ## The scan -/

theorem scanFuel_of_none {img : Image} {V : Bits} (h : shortestMatch img V = none) (f : Nat) :
    scanFuel img f V = ([], V) := by
  cases f with
  | zero => rfl
  | succ f => simp only [scanFuel, h]

theorem scanFuel_succ_of_some {img : Image} {V : Bits} {s : Byte} {L : Nat}
    (h : shortestMatch img V = some (s, L)) (f : Nat) :
    scanFuel img (f + 1) V = (s :: (scanFuel img f (V.drop L)).1, (scanFuel img f (V.drop L)).2) := by
  simp only [scanFuel, h]

/-- Turns beyond the number of bits are not used: each takes at least one bit. -/
theorem scanFuel_eq_scanFuel {img : Image} {f g : Nat} {V : Bits} (hf : V.length ≤ f) (hg : V.length ≤ g) :
    scanFuel img f V = scanFuel img g V := by
  induction f generalizing g V with
  | zero =>
    obtain rfl := List.length_eq_zero_iff.1 (Nat.le_zero.1 hf)
    exact (scanFuel_of_none (NoCodeBegins.nil img).shortestMatch g).symm
  | succ f ih =>
    rcases hm : shortestMatch img V with _ | ⟨s, L⟩
    · rw [scanFuel_of_none hm, scanFuel_of_none hm]
    · obtain ⟨h1, hle, -⟩ := shortestMatch_eq_some.1 hm
      rw [le_min_iff] at hle
      obtain ⟨g, rfl⟩ : ∃ k, g = k + 1 := ⟨g - 1, by omega⟩
      rw [scanFuel_succ_of_some hm, scanFuel_succ_of_some hm, ih (g := g)] <;> rw [List.length_drop] <;> omega

theorem NoCodeBegins.scan {img : Image} {V : Bits} (h : NoCodeBegins img V) : scan img V = ([], V) :=
  scanFuel_of_none h.shortestMatch _

theorem scan_romCode_append {img : Image} (hd : Distinct img) {s : Byte} (hs : Present img s)
    (hfirst : BegunByNoOther img s) (V : Bits) :
    scan img (romCode img s ++ V) = (s :: (scan img V).1, (scan img V).2) := by
  have hm := shortestMatch_romCode_append hd hs hfirst V
  have hpos := List.length_pos_iff.2 (romCode_ne_nil hs)
  obtain ⟨k, hk⟩ : ∃ k, (romCode img s ++ V).length = k + 1 :=
    ⟨(romCode img s ++ V).length - 1, by rw [List.length_append]; omega⟩
  have henough : V.length ≤ k := by
    rw [List.length_append] at hk
    omega
  rw [scan, hk, scanFuel_succ_of_some hm, List.drop_left, scanFuel_eq_scanFuel henough le_rfl, ← scan]

theorem scanFuel_snd_length_le (img : Image) (f : Nat) (V : Bits) : (scanFuel img f V).2.length ≤ V.length := by
  induction f generalizing V with
  | zero => exact le_rfl
  | succ f ih =>
    rcases hm : shortestMatch img V with _ | ⟨s, L⟩
    · rw [scanFuel_of_none hm]
    · rw [scanFuel_succ_of_some hm]
      exact (ih _).trans (by simp)

theorem scan_snd_length_le (img : Image) (V : Bits) : (scan img V).2.length ≤ V.length :=
  scanFuel_snd_length_le img _ V

/-! ## Round trip of the batch functions (R137) -/

theorem scan_codeStream_append {img : Image} (h : PrefixFree img) {B : List Byte} {S r : Bits}
    (hS : codeStream img B = .ok S) (hr : NoCodeBegins img r) : scan img (S ++ r) = (B, r) := by
  induction B generalizing S with
  | nil =>
    cases hS
    exact hr.scan
  | cons b B ih =>
    obtain ⟨c, R, hc, hR, rfl⟩ := codeStream_cons_eq_ok.1 hS
    obtain ⟨hb, rfl⟩ := romLookup_eq_some hc
    rw [List.append_assoc, scan_romCode_append h.distinct hb (h.begunByNoOther hb), ih hR]

/-- Settles O47: the scan reads the codes one by one, since no other code begins any of them. -/
theorem greedyScanRecoversTheSymbols : Obligations.GreedyScanRecoversTheSymbols :=
  fun _ _ _ _ hfree hS hr => scan_codeStream_append hfree hS hr

theorem scan_codeStream {img : Image} (h : PrefixFree img) {B : List Byte} {S : Bits}
    (hS : codeStream img B = .ok S) : scan img S = (B, []) := by
  simpa using scan_codeStream_append h hS (NoCodeBegins.nil img)

theorem decodeBatch_pack {img : Image} (h : PrefixFree img) {B : List Byte} {S : Bits}
    (hS : codeStream img B = .ok S) : decodeBatch img (pack S) S.length = .ok B := by
  simp [decodeBatch, validBits_pack, scan_codeStream h hS]

theorem codeStream_of_covers {img : Image} {B : List Byte} (h : Covers img B) : ∃ S, codeStream img B = .ok S := by
  rcases hS : codeStream img B with b | S
  · obtain ⟨B1, B2, -, rfl, -, habsent⟩ := codeStream_error_split hS
    exact absurd (h b (by simp)) habsent
  · exact ⟨S, rfl⟩

/-- Settles O48: the packed stream read back is the concatenated codes, which the scan reads as the input. -/
theorem decodeOfEncodeIsTheInput : Obligations.DecodeOfEncodeIsTheInput := by
  intro img B hfree hcovers
  obtain ⟨S, hS⟩ := codeStream_of_covers hcovers
  exact ⟨_, encodeBatch_eq_ok.2 ⟨S, hS, rfl⟩, decodeBatch_pack hfree hS⟩

end Sys2Proof.Machine
end

section
/-! Taking bits is scanning them (R132, R133): the loop of DEC_PUT over valid bits leaves unit DEC where the greedy scan
of R130, started at the pending bits, leaves off. -/

namespace Sys2Proof.Machine

/-! ## One bit -/

theorem decBit_of_full {img : Image} {d : Decoder} (h : d.plen = maxLen img) (b : Bool) :
    decBit img d b = .malformed d :=
  if_pos h

section
variable {img : Image} {d : Decoder} {b : Bool} (hplen : d.plen ≠ maxLen img)
include hplen

theorem decBit_of_pending (hnone : ∀ s, Present img s → romCode img s ≠ d.pfx ++ [b]) :
    decBit img d b = .ok { d with pfx := d.pfx ++ [b], pos := d.pos + 1 } := by
  have hmatch : romMatch img (d.plen + 1) (d.pfx ++ [b]) = .none := by
    refine romMatch_eq_none fun s hs => ?_
    obtain ⟨hp, -, hcode⟩ := (mem_romCandidates ..).1 hs
    exact hnone s hp hcode
  obtain ⟨hfull, -⟩ | ⟨-, -, hd⟩ | ⟨s, -, hm, -⟩ | ⟨-, hm, -⟩ := decBit_cases img d b
  · exact absurd hfull hplen
  · exact hd
  · cases hm.symm.trans hmatch
  · cases hm.symm.trans hmatch

theorem decBit_of_code (hdist : Distinct img) {s : Byte} (hs : Present img s) (hcode : romCode img s = d.pfx ++ [b]) :
    decBit img d b = .ok { d with pfx := [], pos := d.pos + 1, nout := d.nout + 1, out := d.out ++ [s] } := by
  have hmatch : romMatch img (d.plen + 1) (d.pfx ++ [b]) = .some s := by
    have hm := romMatch_romCode hdist hs
    rwa [hcode, List.length_append] at hm
  obtain ⟨hfull, -⟩ | ⟨-, hm, -⟩ | ⟨t, -, hm, hd⟩ | ⟨-, hm, -⟩ := decBit_cases img d b
  · exact absurd hfull hplen
  · cases hm.symm.trans hmatch
  · cases hm.symm.trans hmatch
    exact hd
  · cases hm.symm.trans hmatch

end

/-- Settles O17: the three ways a bit can be taken. -/
theorem decBitTakesOneBit : Obligations.DecBitTakesOneBit :=
  fun _ _ bit => ⟨(decBit_of_full · bit), decBit_of_pending,
    fun _ hplen hd hs hcode => decBit_of_code hplen hd hs hcode⟩

/-! ## The bits of a byte -/

/-- Unit DEC after the valid bits `bs`, had they been scanned after those pending (R130): the symbols emitted, and
of the bits left unmatched no more than `MAXLEN` taken; the others are not counted. -/
def Decoder.scanned (img : Image) (d : Decoder) (bs : Bits) : Decoder :=
  let r := scan img (d.pfx ++ bs)
  { d with pos := d.pos + (bs.length - (r.2.length - maxLen img)), pfx := r.2.take (maxLen img),
           nout := d.nout + r.1.length, out := d.out ++ r.1 }

/-- How the taking of the valid bits `bs` ends by the scan: E_MALFORMED when more than `MAXLEN` bits are left. -/
def scanTaking (img : Image) (d : Decoder) (bs : Bits) : Taking :=
  if (scan img (d.pfx ++ bs)).2.length ≤ maxLen img then .ok (d.scanned img bs) else .malformed (d.scanned img bs)

theorem DecoderOpen.noCodeBegins {img : Image} {d : Decoder} (h : DecoderOpen img d) : NoCodeBegins img d.pfx :=
  fun s hs hpre => h.inv.no_match h.active _ (romCode_ne_nil hs) hpre s hs rfl

/-- With as many bits as the longest code has, more bits do not make a code begin. -/
theorem NoCodeBegins.append {img : Image} {V : Bits} (h : NoCodeBegins img V) (hV : maxLen img ≤ V.length)
    (W : Bits) : NoCodeBegins img (V ++ W) := by
  intro s hs hpre
  have hlen := (romCode_length_le_maxLen img s).trans hV
  exact h s hs (List.prefix_of_prefix_length_le hpre (List.prefix_append V W) hlen)

/-- A code that is one bit longer than bits that begin with none is begun by no other (R107). -/
theorem NoCodeBegins.begunByNoOther {img : Image} (hd : Distinct img) {V : Bits} (h : NoCodeBegins img V) {s : Byte}
    (hs : Present img s) {b : Bool} (hcode : romCode img s = V ++ [b]) : BegunByNoOther img s := by
  intro t ht hpre
  rcases List.prefix_concat_iff.1 (hcode ▸ hpre) with heq | hpre
  · exact (distinct_iff img).1 hd t s ht hs (heq.trans hcode.symm)
  · exact absurd hpre (h t ht)

section
variable {img : Image} {d : Decoder}

theorem scanTaking_nil (h : DecoderOpen img d) : scanTaking img d [] = .ok d := by
  have hle : d.pfx.length ≤ maxLen img := h.inv.plen_le_max
  simp [scanTaking, Decoder.scanned, h.noCodeBegins.scan, hle, List.take_of_length_le]

theorem scanTaking_of_full (h : DecoderOpen img d) (hfull : d.plen = maxLen img) (b : Bool) (bs : Bits) :
    scanTaking img d (b :: bs) = .malformed d := by
  have hlen : d.pfx.length = maxLen img := hfull
  have hscan := (h.noCodeBegins.append hfull.ge (b :: bs)).scan
  simp [scanTaking, Decoder.scanned, hscan, ← hlen]

/-- The bits left beyond `MAXLEN` are bits of the byte, since no more than `MAXLEN` were pending (R27 (f)). -/
theorem scan_excess_le (hplen : d.plen ≤ maxLen img) (bs : Bits) :
    (scan img (d.pfx ++ bs)).2.length - maxLen img ≤ bs.length := by
  have hle := scan_snd_length_le img (d.pfx ++ bs)
  rw [List.length_append] at hle
  rw [Decoder.plen] at hplen
  omega

theorem scanTaking_of_pending (hplen : d.plen < maxLen img) (b : Bool) (bs : Bits) :
    scanTaking img d (b :: bs) = scanTaking img { d with pfx := d.pfx ++ [b], pos := d.pos + 1 } bs := by
  have hexcess := scan_excess_le (d := { d with pfx := d.pfx ++ [b] }) (by simpa [Decoder.plen] using hplen) bs
  rw [List.append_assoc, List.singleton_append] at hexcess
  simp only [scanTaking, Decoder.scanned, List.append_assoc, List.singleton_append, List.length_cons]
  rw [Nat.succ_sub hexcess, Nat.add_right_comm, Nat.add_assoc]

theorem scanTaking_of_code (hd : Distinct img) (h : DecoderOpen img d) {s : Byte} (hs : Present img s) {b : Bool}
    (hcode : romCode img s = d.pfx ++ [b]) (bs : Bits) :
    scanTaking img d (b :: bs) =
      scanTaking img { d with pfx := [], pos := d.pos + 1, nout := d.nout + 1, out := d.out ++ [s] } bs := by
  have hscan := scan_romCode_append hd hs (h.noCodeBegins.begunByNoOther hd hs hcode) bs
  rw [hcode, List.append_assoc, List.singleton_append] at hscan
  have hexcess := scan_excess_le (img := img) (d := { d with pfx := [] }) (Nat.zero_le _) bs
  rw [List.nil_append] at hexcess
  simp only [scanTaking, Decoder.scanned, hscan, List.nil_append, List.length_cons, List.append_assoc,
    List.singleton_append]
  rw [Nat.succ_sub hexcess, Nat.add_right_comm d.pos 1, Nat.add_assoc d.pos, Nat.add_right_comm d.nout,
    Nat.add_assoc d.nout]

/-- The loop of DEC_PUT over bits that all lie in the valid region is the scan (R130, R132). -/
theorem decBits_eq_scanTaking (hd : Distinct img) (h : DecoderOpen img d) {bs : Bits}
    (hvalid : bs.length ≤ d.nbits - d.pos) : decBits img d bs = scanTaking img d bs := by
  induction bs generalizing d with
  | nil => rw [scanTaking_nil h, decBits]
  | cons b bs ih =>
    rw [List.length_cons] at hvalid
    have hpos : d.pos < d.nbits := by omega
    have hkeeps : ∀ {d'}, decBit img d b = .ok d' → DecoderOpen img d' := fun hb =>
      decBit_keeps_open h hpos (Taking.unit?_of_ok hb)
    rw [decBits, if_pos hpos]
    by_cases hfull : d.plen = maxLen img
    · rw [decBit_of_full hfull, scanTaking_of_full h hfull]
    by_cases hcode : ∃ s, Present img s ∧ romCode img s = d.pfx ++ [b]
    · obtain ⟨s, hs, hcode⟩ := hcode
      have hb := decBit_of_code hfull hd hs hcode
      rw [hb, scanTaking_of_code hd h hs hcode]
      exact ih (hkeeps hb) (by dsimp only; omega)
    · have hb := decBit_of_pending hfull fun s hs heq => hcode ⟨s, hs, heq⟩
      rw [hb, scanTaking_of_pending (lt_of_le_of_ne h.inv.plen_le_max hfull)]
      exact ih (hkeeps hb) (by dsimp only; omega)

/-- The loop of DEC_PUT over any bits scans those that lie in the valid region (R45, R132). -/
theorem decBits_eq_scanTaking_take (hd : Distinct img) (h : DecoderOpen img d) (bs : Bits) :
    decBits img d bs = scanTaking img d (bs.take (d.nbits - d.pos)) := by
  rw [← decBits_take]
  exact decBits_eq_scanTaking hd h (List.length_take_le _ _)

/-- Where no more than `MAXLEN` bits are left, all bits are taken and what is left is pending. -/
theorem scanned_of_fits {bs : Bits} (h : (scan img (d.pfx ++ bs)).2.length ≤ maxLen img) :
    d.scanned img bs =
      { d with pos := d.pos + bs.length, pfx := (scan img (d.pfx ++ bs)).2,
               nout := d.nout + (scan img (d.pfx ++ bs)).1.length, out := d.out ++ (scan img (d.pfx ++ bs)).1 } := by
  simp only [Decoder.scanned, List.take_of_length_le h, Nat.sub_eq_zero_of_le h, Nat.sub_zero]

theorem scanned_plen_of_excess {bs : Bits} (h : maxLen img < (scan img (d.pfx ++ bs)).2.length) :
    (d.scanned img bs).plen = maxLen img :=
  List.length_take_of_le h.le

/-- Where more are left, `MAXLEN` of them are taken, from the first one on. -/
theorem scanned_of_excess (h : DecoderOpen img d) {bs : Bits}
    (hlt : maxLen img < (scan img (d.pfx ++ bs)).2.length) :
    d.scanned img bs =
      { d with pos := d.pos - d.plen + ((d.pfx ++ bs).length - (scan img (d.pfx ++ bs)).2.length) + maxLen img,
               pfx := (scan img (d.pfx ++ bs)).2.take (maxLen img),
               nout := d.nout + (scan img (d.pfx ++ bs)).1.length, out := d.out ++ (scan img (d.pfx ++ bs)).1 } := by
  have hle := scan_snd_length_le img (d.pfx ++ bs)
  have hmax : d.pfx.length ≤ maxLen img := h.inv.plen_le_max
  have hpos : d.pfx.length ≤ d.pos := h.inv.plen_le_pos
  simp only [Decoder.scanned, Decoder.plen, List.length_append, Decoder.mk.injEq, true_and, and_true] at hle ⊢
  omega

end

/-! ## DEC_PUT -/

theorem exec_decPut_of_not_active {p : Byte} {s : State} (hp : s.dec.flags.phase ≠ .active) :
    exec (.decPut p) s = illegalCommand s :=
  exec_of_not_legalByPhase ((sessionOpen_eq_false _).2 hp)

theorem exec_decPut_of_ok {p : Byte} {s : State} {d : Decoder} (hp : s.dec.flags.phase = .active)
    (hd : Distinct s.params.rom) (hbits : decBits s.params.rom s.dec (byteBits p) = .ok d) :
    exec (.decPut p) s = respond .ok d.nout (s.setDec d) := by
  simp only [exec, execDecPut, (sessionOpen_eq_true _).2 hp, if_true, withDistinct_of_distinct hd, hbits]

/-- Settles O16: the loop over the byte's bits is the scan of those in the valid region, and a scan that leaves too many
bits leaves the unit at the first `MAXLEN` of them. -/
theorem decPutScansTheValidBits : Obligations.DecPutScansTheValidBits := by
  refine fun s p => ⟨exec_decPut_of_not_active, fun hp hd hinv => ?_⟩
  have hopen : DecoderOpen s.params.rom s.dec := ⟨hp, hinv⟩
  have hbits := decBits_eq_scanTaking_take hd hopen (byteBits p)
  refine ⟨fun hle => ?_, fun hlt => ?_⟩
  · rw [exec_decPut_of_ok hp hd (hbits.trans (if_pos hle)), scanned_of_fits hle]
    rfl
  · rw [exec_decPut_of_malformed hp hd (hbits.trans (if_neg hlt.not_ge)), scanned_plen_of_excess hlt,
      scanned_of_excess hopen hlt, Nat.add_sub_cancel]
    rfl

end Sys2Proof.Machine
end

section
/-! Decode sessions (R136): the commands of DECODE P, n take the valid bits of the bytes in order, so the session ends
as the batch scan of all of them does. -/

namespace Sys2Proof.Machine

/-! ## DEC_START and DEC_END -/

/-- The block `s` with unit DEC at `d`, having answered the unit's symbol count: what the accepted commands of a decode
session up to DEC_END leave (R131, R132). -/
def State.decodedTo (s : State) (d : Decoder) : State := (s.setDec d).setResp ⟨.ok, d.nout⟩


theorem exec_decStart {n : Nat} {s : State} (hd : Distinct s.params.rom) (hn : n < 2 ^ s.params.cntw) :
    exec (.decStart n) s = .next (s.decodedTo (openDecoder n)) :=
  (exec_decStart_of_fits hn).trans (withDistinct_of_distinct hd _)

/-- Settles O14: DEC_START of a count that fits has one case on a distinct image. -/
theorem decStartOpensASession : Obligations.DecStartOpensASession := fun _ _ hd hn => exec_decStart hd hn

theorem exec_decEnd_of_not_active {s : State} (hp : s.dec.flags.phase ≠ .active) :
    exec .decEnd s = illegalCommand s :=
  exec_of_not_legalByPhase ((sessionOpen_eq_false _).2 hp)

theorem exec_decEnd_of_truncated {s : State} (hp : s.dec.flags.phase = .active) (hd : Distinct s.params.rom)
    (h : s.dec.pos < s.dec.nbits ∨ s.dec.plen ≠ 0) :
    exec .decEnd s = raise .dec .truncated (s.dec.pos - s.dec.plen) s := by
  simp only [exec, execDecEnd, (sessionOpen_eq_true _).2 hp, if_true, withDistinct_of_distinct hd, if_pos h]

theorem Decoder.plen_eq_zero (d : Decoder) : d.plen = 0 ↔ d.pfx = [] := List.length_eq_zero_iff

/-- Settles O19: the three cases of DEC_END. -/
theorem decEndClosesOrReportsTruncation : Obligations.DecEndClosesOrReportsTruncation :=
  fun s => ⟨exec_decEnd_of_not_active,
    fun hp hd h => exec_decEnd_of_truncated hp hd (h.imp_right (mt s.dec.plen_eq_zero.1)),
    fun hp hd hpos hpfx => exec_decEnd_of_exhausted hp hd hpos (s.dec.plen_eq_zero.2 hpfx)⟩

/-! ## The bits of several bytes -/

/-- Go on with `f` from the unit that a taking ends in; an error or an ambiguous match stays as it is. -/
def Taking.andThen (k : Taking) (f : Decoder → Taking) : Taking :=
  match k with
  | .ok d => f d
  | .malformed d => .malformed d
  | .ambiguous => .ambiguous

theorem decBits_append (img : Image) (d : Decoder) (bs cs : Bits) :
    decBits img d (bs ++ cs) = (decBits img d bs).andThen (decBits img · cs) := by
  induction bs generalizing d with
  | nil => rfl
  | cons b bs ih =>
    rw [List.cons_append, decBits, decBits]
    split
    · cases decBit img d b with
      | ok d' => exact ih d'
      | malformed d' => rfl
      | ambiguous => rfl
    · exact ih d

theorem decBits_append_eq_ok {img : Image} {d d' : Decoder} {bs cs : Bits} :
    decBits img d (bs ++ cs) = .ok d' ↔ ∃ d₁, decBits img d bs = .ok d₁ ∧ decBits img d₁ cs = .ok d' := by
  rw [decBits_append]
  cases decBits img d bs <;> simp [Taking.andThen]

theorem decBits_append_eq_malformed {img : Image} {d d' : Decoder} {bs cs : Bits} :
    decBits img d (bs ++ cs) = .malformed d' ↔
      decBits img d bs = .malformed d' ∨ ∃ d₁, decBits img d bs = .ok d₁ ∧ decBits img d₁ cs = .malformed d' := by
  rw [decBits_append]
  cases decBits img d bs <;> simp [Taking.andThen]

/-- E_MALFORMED is reached in one of the bytes, the bytes before it being taken whole. -/
theorem decBits_bytes_malformed {img : Image} {d d' : Decoder} {P : List Byte}
    (h : decBits img d (P.flatMap byteBits) = .malformed d') :
    ∃ P1 p P2 d₁, P = P1 ++ p :: P2 ∧ decBits img d (P1.flatMap byteBits) = .ok d₁ ∧
      decBits img d₁ (byteBits p) = .malformed d' := by
  induction P generalizing d with
  | nil => cases h
  | cons p P ih =>
    rw [List.flatMap_cons] at h
    obtain hhere | ⟨d₁, hp, hlater⟩ := decBits_append_eq_malformed.1 h
    · exact ⟨[], p, P, d, rfl, rfl, hhere⟩
    · obtain ⟨P1, q, P2, d₂, rfl, hP1, hq⟩ := ih hlater
      exact ⟨p :: P1, q, P2, d₂, rfl, decBits_append_eq_ok.2 ⟨d₁, hp, hP1⟩, hq⟩

/-! ## The commands of a session -/

section
variable {s : State} (hd : Distinct s.params.rom)
include hd

/-- DEC_PUTs in an open session that meet no error. -/
theorem execAll_decPuts {d d' : Decoder} (active : d.flags.phase = .active) {P : List Byte}
    (hbits : decBits s.params.rom d (P.flatMap byteBits) = .ok d') :
    execAll (P.map .decPut) (s.decodedTo d) = .next (s.decodedTo d') := by
  induction P generalizing d with
  | nil =>
    cases hbits
    rfl
  | cons p P ih =>
    obtain ⟨d₁, hp, hP⟩ := decBits_append_eq_ok.1 hbits
    have active₁ : d₁.flags.phase = .active := (decBits_onward (Taking.unit?_of_ok hp)).flags ▸ active
    exact execAll_cons_eq_next.2 ⟨_, exec_decPut_of_ok (s := s.decodedTo d) active hd hp, ih active₁ hP⟩

/-- DEC_START and DEC_PUTs that meet no error: the session is open still. -/
theorem execAll_decStart_decPuts {n : Nat} (hn : n < 2 ^ s.params.cntw) {d : Decoder} {P : List Byte}
    (hbits : decBits s.params.rom (openDecoder n) (P.flatMap byteBits) = .ok d) :
    execAll (.decStart n :: P.map .decPut) s = .next (s.decodedTo d) ∧ d.flags.phase = .active :=
  ⟨execAll_cons_eq_next.2 ⟨_, exec_decStart hd hn, execAll_decPuts hd rfl hbits⟩,
    congrArg UnitFlags.phase (decBits_onward (Taking.unit?_of_ok hbits)).flags⟩

end

theorem decodeCommands_append (P Q : List Byte) (n : Nat) :
    decodeCommands (P ++ Q) n = (.decStart n :: P.map .decPut) ++ (Q.map .decPut ++ [.decEnd]) := by
  simp [decodeCommands]

/-- The commands of a session that is not open any more (R166, R170). -/
theorem execAll_decPuts_decEnd_of_not_active {s : State} (hp : s.dec.flags.phase ≠ .active) (P : List Byte) :
    execAll (P.map .decPut ++ [.decEnd]) s = illegalCommand s := by
  have hclosed : sessionOpen s.dec.flags.phase = false := (sessionOpen_eq_false _).2 hp
  refine execAll_of_not_legalByPhase (fun j hj => ?_) hclosed
  obtain ⟨b, -, rfl⟩ := List.mem_map.1 hj
  exact hclosed

/-! ## The session DECODE P, n -/

theorem DecoderOpen.openDecoder (img : Image) (n : Nat) : DecoderOpen img (openDecoder n) :=
  ⟨rfl, .openDecoder img n⟩

/-- The DEC_PUTs of a session scan the valid bits of its bytes, `V` of R130. -/
theorem decBits_openDecoder {img : Image} (hd : Distinct img) (P : List Byte) (n : Nat) :
    decBits img (openDecoder n) (P.flatMap byteBits) = scanTaking img (openDecoder n) (validBits P n) :=
  decBits_eq_scanTaking_take hd (.openDecoder img n) _

/-- What the batch function answers, by what the scan leaves (R130). -/
theorem decodeBatch_cases (img : Image) (P : List Byte) (n : Nat) :
    (maxLen img < (scan img (validBits P n)).2.length ∧ decodeBatch img P n = .error .malformed) ∨
    ((scan img (validBits P n)).2.length ≤ maxLen img ∧
      ((validBits P n).length < n ∨ (scan img (validBits P n)).2 ≠ []) ∧ decodeBatch img P n = .error .truncated) ∨
    (n ≤ (validBits P n).length ∧ (scan img (validBits P n)).2 = [] ∧
      decodeBatch img P n = .ok (scan img (validBits P n)).1) := by
  simp only [decodeBatch]
  by_cases hnil : (scan img (validBits P n)).2 = []
  · by_cases hshort : (validBits P n).length < n
    · simp [hnil, hshort]
    · simp [hnil, hshort, not_lt.1 hshort]
  · by_cases hlong : maxLen img < (scan img (validBits P n)).2.length
    · simp [hnil, hlong]
    · simp [hnil, hlong, not_lt.1 hlong]

/-- Unit DEC in an open session of `n` valid bits when the bits `V` of it have been taken without an error (R130). -/
def scannedSession (img : Image) (n : Nat) (V : Bits) : Decoder :=
  ⟨openFlags, n, V.length, (scan img V).2, (scan img V).1.length, (scan img V).1⟩

theorem scanned_openDecoder {img : Image} {n : Nat} {V : Bits} (h : (scan img V).2.length ≤ maxLen img) :
    (openDecoder n).scanned img V = scannedSession img n V := by
  rw [scanned_of_fits (d := openDecoder n) h]
  simp [openDecoder, Decoder.reset, scannedSession]

section
variable {s : State} (hd : Distinct s.params.rom) {n : Nat} (hn : n < 2 ^ s.params.cntw) {P : List Byte}
include hd hn

theorem decodeSession_open (hfits : (scan s.params.rom (validBits P n)).2.length ≤ maxLen s.params.rom) :
    execAll (.decStart n :: P.map .decPut) s =
      .next (s.decodedTo (scannedSession s.params.rom n (validBits P n))) := by
  rw [← scanned_openDecoder hfits]
  exact (execAll_decStart_decPuts hd hn ((decBits_openDecoder hd P n).trans (if_pos hfits))).1

/-- The scan uses up all of `n` valid bits: DEC_END closes the session. -/
theorem decodeSession_done (hlen : n ≤ (validBits P n).length) (hr : (scan s.params.rom (validBits P n)).2 = []) :
    execAll (decodeCommands P n) s =
      .next ((s.setDec ((scannedSession s.params.rom n (validBits P n)).setFlags (doneFlags openFlags))).setResp
        ⟨.ok, (scan s.params.rom (validBits P n)).1.length⟩) := by
  have hend := exec_decEnd_of_exhausted (s := s.decodedTo (scannedSession s.params.rom n (validBits P n))) rfl hd hlen
    ((Decoder.plen_eq_zero _).2 hr)
  exact execAll_append_eq_next.2
    ⟨_, decodeSession_open hd hn (by simp [hr]), execAll_cons_eq_next.2 ⟨_, hend, rfl⟩⟩

/-- Valid bits are missing or left unmatched, but not too many: DEC_END raises E_TRUNCATED. -/
theorem decodeSession_truncated (hfits : (scan s.params.rom (validBits P n)).2.length ≤ maxLen s.params.rom)
    (h : (validBits P n).length < n ∨ (scan s.params.rom (validBits P n)).2 ≠ []) :
    ∃ t, execAll (decodeCommands P n) s = .next t ∧ t.enc = s.enc ∧ t.dec.flags.phase = .error ∧
      t.dec.flags.err = some .truncated := by
  have hend := exec_decEnd_of_truncated (s := s.decodedTo (scannedSession s.params.rom n (validBits P n))) rfl hd
    (h.imp_right (mt (Decoder.plen_eq_zero _).1))
  have hsession : execAll (decodeCommands P n) s = .next _ :=
    execAll_append_eq_next.2 ⟨_, decodeSession_open hd hn hfits, execAll_cons_eq_next.2 ⟨_, hend, rfl⟩⟩
  exact ⟨_, hsession, rfl, rfl, rfl⟩

/-- Too many bits are left unmatched: a DEC_PUT raises E_MALFORMED and the later commands are illegal. -/
theorem decodeSession_malformed (hlong : maxLen s.params.rom < (scan s.params.rom (validBits P n)).2.length) :
    ∃ P1 p P2 d t₂ t, P = P1 ++ p :: P2 ∧
      execAll (.decStart n :: P1.map .decPut) s = .next (s.decodedTo d) ∧ d.flags.phase = .active ∧
      exec (.decPut p) (s.decodedTo d) = .next t₂ ∧ t₂.dec.flags.phase = .error ∧
      t₂.dec.flags.err = some .malformed ∧ execAll (decodeCommands P n) s = .next t ∧ t.enc = s.enc ∧
      t.dec = t₂.dec := by
  obtain ⟨P1, p, P2, d, rfl, hP1, hp⟩ :=
    decBits_bytes_malformed ((decBits_openDecoder hd P n).trans (if_neg hlong.not_ge))
  obtain ⟨hopen, active⟩ := execAll_decStart_decPuts hd hn hP1
  have hraise := exec_decPut_of_malformed (s := s.decodedTo d) active hd hp
  have hsession := execAll_append_eq_next.2 ⟨_, hopen, execAll_cons_eq_next.2
    ⟨_, hraise, execAll_decPuts_decEnd_of_not_active (by simp) P2⟩⟩
  exact ⟨P1, p, P2, d, _, _, rfl, hopen, active, hraise, rfl, rfl,
    (congrArg (execAll · s) (decodeCommands_append P1 _ n)).trans hsession, rfl, rfl⟩

end

/-- Settles O45: what the scan of the valid bits leaves decides both how the batch function ends and how the session
does. -/
theorem decodeSessionAgreesWithDecode : Obligations.DecodeSessionAgreesWithDecode := by
  intro s P n hd hn
  obtain ⟨hlong, hbatch⟩ | ⟨hfits, hleft, hbatch⟩ | ⟨hlen, hr, hbatch⟩ := decodeBatch_cases s.params.rom P n <;>
    rw [hbatch]
  · obtain ⟨P1, p, P2, d, t₂, t, hP, hopen, active, hput, hphase, herr, hsession, henc, hdec⟩ :=
      decodeSession_malformed hd hn hlong
    exact ⟨t, hsession, henc, nofun, fun _ => ⟨P1, p, P2, _, t₂, hP, hopen, active, hput, hphase, herr, hdec⟩, nofun,
      fun e he => .inl (Except.error.inj he).symm⟩
  · obtain ⟨t, hsession, henc, hphase, herr⟩ := decodeSession_truncated hd hn hfits hleft
    exact ⟨t, hsession, henc, nofun, nofun, fun _ => ⟨_, decodeSession_open hd hn hfits, rfl, hphase, herr⟩,
      fun e he => .inr (Except.error.inj he).symm⟩
  · refine ⟨_, decodeSession_done hd hn hlen hr, rfl, fun B hB => ?_, nofun, nofun, nofun⟩
    cases hB
    exact ⟨rfl, rfl, rfl⟩

/-- R137: the session that decodes the packed codes of `B`. -/
theorem decodeSession_pack {s : State} {B : List Byte} {S : Bits} (hfree : PrefixFree s.params.rom)
    (hS : codeStream s.params.rom B = .ok S) (hcount : S.length < 2 ^ s.params.cntw) :
    execAll (decodeCommands (pack S) S.length) s =
      .next ((s.setDec ⟨doneFlags openFlags, S.length, S.length, [], B.length, B⟩).setResp ⟨.ok, B.length⟩) := by
  have hvalid := validBits_pack S
  have hscan := scan_codeStream hfree hS
  have hsession := decodeSession_done hfree.distinct hcount (P := pack S) (by rw [hvalid]) (by rw [hvalid, hscan])
  rwa [hvalid, scannedSession, hscan] at hsession

/-- Settles O49: the generated image is `PrefixFree`, so the session that decodes `ENC.OUT` up to `ENC.NBITS` reads the
codes of `B` back. -/
theorem roundTripThroughTheBlock : Obligations.RoundTripThroughTheBlock := by
  intro s B S hrom hS hfit
  have hfree : PrefixFree s.params.rom := by
    obtain ⟨-, -, hfree, -⟩ := generatedImagesArePrefixFreeAndCover B
    rwa [hrom]
  have hcount : S.length < 2 ^ s.params.cntw := Nat.lt_of_le_pred (Nat.two_pow_pos _) hfit
  obtain ⟨t, hencode, henc, hparams⟩ : ∃ t, execAll (encodeCommands B) s = .next t ∧
      t.enc = encodedEncoder B.length S ∧ t.params = s.params := ⟨_, execAll_encodeCommands hS hfit, rfl, rfl⟩
  rw [← hparams] at hfree hS hcount
  have hdecode := decodeSession_pack hfree hS hcount
  rw [← encodedEncoder_out B.length S, ← encodedEncoder_nbits B.length S, ← henc] at hdecode
  exact ⟨t, _, hencode, congrArg (·.flags.phase) henc, hdecode, rfl, rfl, rfl, rfl⟩

end Sys2Proof.Machine
end

section
/-! Full tables (R138): with a `PrefixFree` table whose Kraft sum is 1, bits as long as the longest code begin with a
code, so `MAXLEN` bits are never pending and no bit is malformed. -/

namespace Sys2Proof.Machine

/-! ## The counting argument -/

/-- A bit string that no code begins, as long as the longest code, would be one more code beside the others. -/
theorem PrefixFree.uniquelyDecodable_insert {img : Image} (h : PrefixFree img) {w : Bits} (hne : w ≠ [])
    (hw : NoCodeBegins img w) (hlen : maxLen img ≤ w.length) :
    InformationTheory.UniquelyDecodable (insert w (codeSet img) : Set Bits) := by
  refine uniquelyDecodable_of_prefix_free ?_ ?_ <;> simp only [Set.mem_insert_iff, Finset.mem_coe, mem_codeSet]
  · rintro (hnil | ⟨s, hs, hnil⟩)
    · exact hne hnil.symm
    · exact romCode_ne_nil hs hnil
  · rintro _ (rfl | ⟨s, hs, rfl⟩) _ (rfl | ⟨t, ht, rfl⟩) hpre
    · rfl
    · exact hpre.eq_of_length_le ((romCode_length_le_maxLen img t).trans hlen)
    · exact absurd hpre (hw s hs)
    · rw [h.begunByNoOther ht s hs hpre]

theorem KraftFull.maxLen_pos {img : Image} (h : KraftFull img) : 0 < maxLen img := by
  by_contra hzero
  have hnone : presentSyms img = [] := by
    refine List.eq_nil_iff_forall_not_mem.2 fun s hs => (mem_presentSyms img s).1 hs ?_
    exact Nat.le_zero.1 ((romLen_le_maxLen img s).trans (not_lt.1 hzero))
  rw [KraftFull, kraftSum, hnone] at h
  exact (Nat.two_pow_pos _).ne h

/-- R138: a full `PrefixFree` table leaves no room for bits of the longest code's length that no code begins. -/
theorem PrefixFree.exists_code_prefix {img : Image} (h : PrefixFree img) (hfull : KraftFull img) {w : Bits}
    (hlen : w.length = maxLen img) : ∃ s, Present img s ∧ romCode img s <+: w := by
  by_contra hnone
  have hw : NoCodeBegins img w := fun s hs hpre => hnone ⟨s, hs, hpre⟩
  have hne : w ≠ [] := List.length_pos_iff.1 (hlen ▸ hfull.maxLen_pos)
  have hnew : w ∉ codeSet img := by
    rw [mem_codeSet]
    rintro ⟨s, hs, rfl⟩
    exact hw s hs List.prefix_rfl
  have hud := h.uniquelyDecodable_insert hne hw hlen.ge
  rw [← Finset.coe_insert] at hud
  have hkraft := sum_two_pow_le_of_uniquelyDecodable hud (n := Config.lmax) ?_
  · rw [Finset.sum_insert hnew, ← kraftSum_eq_sum_codeSet h.distinct, hfull] at hkraft
    have := Nat.two_pow_pos (Config.lmax - w.length)
    omega
  · intro c hc
    rcases Finset.mem_insert.1 hc with rfl | hc
    · exact hlen.trans_le (maxLen_le img)
    · obtain ⟨s, -, rfl⟩ := mem_codeSet.1 hc
      exact (romCode_length img s).trans_le (romLen_le img s)

/-! ## E_MALFORMED -/

/-- E_MALFORMED is raised with `MAXLEN` bits pending (R133). -/
theorem plen_of_decBits_malformed {img : Image} (hd : Distinct img) {d d' : Decoder} (h : DecoderOpen img d)
    {bs : Bits} (hbits : decBits img d bs = .malformed d') : d'.plen = maxLen img := by
  rw [decBits_eq_scanTaking_take hd h, scanTaking] at hbits
  split at hbits
  · cases hbits
  · rename_i hlong
    cases hbits
    exact scanned_plen_of_excess (not_le.1 hlong)

theorem decBits_ne_malformed_of_full {img : Image} (hfree : PrefixFree img) (hfull : KraftFull img) {d : Decoder}
    (h : DecoderOpen img d) (bs : Bits) (d' : Decoder) : decBits img d bs ≠ .malformed d' := by
  intro hbits
  obtain ⟨s, hs, hpre⟩ := hfree.exists_code_prefix hfull (plen_of_decBits_malformed hfree.distinct h hbits)
  exact (decBits_keeps_open h (Taking.unit?_of_malformed hbits)).noCodeBegins s hs hpre

/-- Of all commands only DEC_PUT answers E_MALFORMED, and only when its bits do (R161). -/
theorem exec_malformed {i : Instr} {s t : State} {v : Nat} (h : exec i s = .next t)
    (hr : t.resp = some ⟨.err .malformed, v⟩) :
    ∃ p d, s.dec.flags.phase = .active ∧ decBits s.params.rom s.dec (byteBits p) = .malformed d := by
  cases i with
  | encStart =>
    obtain rfl := (execEncStart_next s t).1 h
    cases hr
  | encPut b =>
    obtain ⟨-, rfl⟩ | ⟨-, -, rfl⟩ | ⟨_, -, -, -, rfl⟩ | ⟨_, -, -, -, rfl⟩ := execEncPut_next h <;> cases hr
  | encEnd =>
    obtain ⟨-, rfl⟩ | ⟨-, rfl⟩ := execEncEnd_next h
    · cases hr
    · rw [State.setResp_resp] at hr
      split at hr <;> cases hr
  | decStart n => obtain ⟨-, rfl⟩ | ⟨-, -, rfl⟩ := execDecStart_next h <;> cases hr
  | decPut p =>
    obtain ⟨-, rfl⟩ | ⟨_, -, -, -, rfl⟩ | ⟨d, active, -, hbits, -⟩ := execDecPut_next h
    · cases hr
    · cases hr
    · exact ⟨p, d, active, hbits⟩
  | decEnd => obtain ⟨-, rfl⟩ | ⟨-, -, -, rfl⟩ | ⟨-, -, -, -, rfl⟩ := execDecEnd_next h <;> cases hr
  | rdreg r => obtain ⟨-, rfl⟩ | ⟨_, -, rfl⟩ := execRdreg_next h <;> cases hr
  | rst =>
    obtain rfl := (execRst_next s t).1 h
    cases hr

/-- Settles O50: a malformed bit comes with `MAXLEN` pending bits that no code begins, which a full table leaves no room
for. -/
theorem fullTablesNeverMalformed : Obligations.FullTablesNeverMalformed := by
  intro i s t v hinv hfree hfull h hr
  obtain ⟨p, d, active, hbits⟩ := exec_malformed h hr
  exact decBits_ne_malformed_of_full hfree hfull ⟨active, hinv.dec_inv⟩ _ d hbits

end Sys2Proof.Machine
end

section
/-! RDREG and RST (R150, R151): what RDREG answers for a number that names a status register and for a reserved one
(R25), and RST as power-on reset of both units. -/

namespace Sys2Proof.Machine

/-! ## RDREG -/

theorem statusRegOf_eq_none (r : RegNum) : statusRegOf r = none ↔ r = 7 ∨ r = 15 ∨ 18 ≤ r.toNat := by
  revert r
  decide

theorem exec_rdreg_of_some {r : RegNum} {q : StatusReg} (hq : statusRegOf r = some q) (s : State) :
    exec (.rdreg r) s = .next (s.setResp ⟨.ok, readStatusReg q s⟩) := by
  simp only [exec, execRdreg, hq, respond]

theorem exec_rdreg_of_none {r : RegNum} (hr : statusRegOf r = none) (s : State) :
    exec (.rdreg r) s = .next (s.setResp ⟨.illegalCmd, 0⟩) := by
  simp only [exec, execRdreg, hr, illegalCommand, respond]

/-- Settles O20: each number is looked up in the table of R25, and `readStatusReg` of the register found is the content
that the statement writes out; the two code tables are compared value by value. -/
theorem rdregReadsEveryStatusRegister : Obligations.RdregReadsEveryStatusRegister := by
  intro s reads phase err
  have hphase (p : Phase) : p.code = phase p := by cases p <;> rfl
  have herr (e : Option ErrorKind) : errCode e = err e := by
    rcases e with _ | k
    · rfl
    · cases k <;> rfl
  have hreads {n : RegNum} {v : Nat} (q : StatusReg) (hq : statusRegOf n = some q) (hv : readStatusReg q s = v) :
      reads n v := hv ▸ exec_rdreg_of_some hq s
  exact ⟨hreads .encPhase rfl (hphase _), hreads .encErr rfl (herr _), hreads .encEinfo rfl rfl,
    hreads .encNbits rfl rfl, hreads .encNsym rfl rfl, hreads .encNacc rfl rfl, hreads .encAcc rfl rfl,
    hreads .decPhase rfl (hphase _), hreads .decErr rfl (herr _), hreads .decEinfo rfl rfl,
    hreads .decNbits rfl rfl, hreads .decPos rfl rfl, hreads .decPlen rfl rfl, hreads .decNout rfl rfl,
    hreads .tblMaxlen rfl rfl, hreads .tblNcodes rfl rfl,
    fun r hr => exec_rdreg_of_none ((statusRegOf_eq_none r).2 hr) s⟩

/-! ## RST -/

/-- Settles O21: RST writes into both units the reset values that power-on reset starts from. -/
theorem rstRestoresTheResetState : Obligations.RstRestoresTheResetState :=
  fun s => ⟨(execRst_next s _).2 rfl, rfl, rfl, rfl⟩

end Sys2Proof.Machine
end

section
/-! Exceptions (R160 to R173): which commands are illegal in a phase, what every answer says about the command and the
state that gave it, and how a unit leaves phase ERROR. -/

namespace Sys2Proof.Machine

/-! ## Legality (R166) -/

/-- The commands out of phase, unit by unit: a PUT or END of a unit that is not ACTIVE. -/
theorem legalByPhase_eq_false (i : Instr) (s : State) :
    legalByPhase i s = false ↔
      (((∃ b, i = .encPut b) ∨ i = .encEnd) ∧ s.enc.flags.phase ≠ .active) ∨
        (((∃ p, i = .decPut p) ∨ i = .decEnd) ∧ s.dec.flags.phase ≠ .active) := by
  cases i <;> simp [legalByPhase]

theorem wf_rdreg_of_statusRegOf_none {r : RegNum} (hr : statusRegOf r = none) (cntw : Nat) :
    (Instr.rdreg r).wf cntw = false := by
  revert r
  simp only [Instr.wf]
  decide

/-! ## Answers (R65, R161) -/

/-- What each answer says of the command `i` and the state `s` that gave it: why a command is illegal, when there is
nothing to compress (R173), and what error entry of either unit writes (R167, R168). -/
inductive Answer (i : Instr) (s : State) : State → Prop where
  | illegal (reason : legalByPhase i s = false ∨ i.wf s.params.cntw = false) :
      Answer i s (s.setResp ⟨.illegalCmd, 0⟩)
  | ok (t : State) (v : Nat) : Answer i s (t.setResp ⟨.ok, v⟩)
  | nothing (command : i = .encEnd) (active : s.enc.flags.phase = .active) (empty : s.enc.nbits = 0) :
      Answer i s ((s.setEnc ((flushAcc s.enc).setFlags (doneFlags s.enc.flags))).setResp ⟨.nothing, 0⟩)
  | encError (k : ErrorKind) (info : Nat) (command : i.unit? = some .enc)
      (kind : k = .byteNotInTable ∨ k = .countOverflow) :
      Answer i s ((s.setEnc (s.enc.setFlags (errorFlags k info))).setResp ⟨.err k, info⟩)
  | decError (k : ErrorKind) (info : Nat) (d : Decoder) (command : i.unit? = some .dec) (onward : s.dec.Onward d)
      (kind : k = .truncated ∧ d = s.dec ∨ k = .malformed) :
      Answer i s ((s.setDec (d.setFlags (errorFlags k info))).setResp ⟨.err k, info⟩)

theorem exec_answer {i : Instr} {s t : State} (h : exec i s = .next t) : Answer i s t := by
  cases i with
  | encStart =>
    obtain rfl := (execEncStart_next s t).1 h
    exact .ok _ _
  | encPut b =>
    obtain ⟨hp, rfl⟩ | ⟨-, -, rfl⟩ | ⟨_, -, -, -, rfl⟩ | ⟨_, -, -, -, rfl⟩ := execEncPut_next h
    · exact .illegal (.inl ((sessionOpen_eq_false _).2 hp))
    · exact .encError _ _ rfl (.inl rfl)
    · exact .encError _ _ rfl (.inr rfl)
    · exact .ok _ _
  | encEnd =>
    obtain ⟨hp, rfl⟩ | ⟨hp, rfl⟩ := execEncEnd_next h
    · exact .illegal (.inl ((sessionOpen_eq_false _).2 hp))
    · split
      next hnbits => exact .nothing rfl hp hnbits
      next => exact .ok _ _
  | decStart n =>
    obtain ⟨hn, rfl⟩ | ⟨-, -, rfl⟩ := execDecStart_next h
    · exact .illegal (.inr (decide_eq_false (not_lt.2 hn)))
    · exact .ok _ _
  | decPut p =>
    obtain ⟨hp, rfl⟩ | ⟨_, -, -, -, rfl⟩ | ⟨d, -, -, hbits, rfl⟩ := execDecPut_next h
    · exact .illegal (.inl ((sessionOpen_eq_false _).2 hp))
    · exact .ok _ _
    · exact .decError _ _ d rfl (decBits_onward (Taking.unit?_of_malformed hbits)) (.inr rfl)
  | decEnd =>
    obtain ⟨hp, rfl⟩ | ⟨-, -, -, rfl⟩ | ⟨-, -, -, -, rfl⟩ := execDecEnd_next h
    · exact .illegal (.inl ((sessionOpen_eq_false _).2 hp))
    · exact .decError _ _ s.dec rfl (.refl _) (.inl ⟨rfl, rfl⟩)
    · exact .ok _ _
  | rdreg r =>
    obtain ⟨hr, rfl⟩ | ⟨_, -, rfl⟩ := execRdreg_next h
    · exact .illegal (.inr (wf_rdreg_of_statusRegOf_none hr _))
    · exact .ok _ _
  | rst =>
    obtain rfl := (execRst_next s t).1 h
    exact .ok _ _

/-- Settles O27: out of phase a command is answered as illegal whatever else it is, and ST_ILLEGAL_CMD is answered for
no other reason but an operand without a legal word. -/
theorem legalityDependsOnThePhaseAlone : Obligations.LegalityDependsOnThePhaseAlone := by
  intro i s hwf outOfPhase
  have hphase : legalByPhase i s = false ↔ outOfPhase := legalByPhase_eq_false i s
  refine ⟨fun hout => exec_of_not_legalByPhase (hphase.2 hout), fun hin t v h hr => ?_⟩
  cases exec_answer h with
  | illegal reason =>
    obtain hout | hnot := reason
    · exact hin (hphase.1 hout)
    · cases hwf.symm.trans hnot
  | _ => cases hr

/-- Settles O29: ENC_END finds `NBITS = 0`, and the invariant, before it and after it, bounds `NSYM` and the stream by
that count. -/
theorem nothingToCompressOnlyForAnEmptySession : Obligations.NothingToCompressOnlyForAnEmptySession := by
  intro i s t v hinv h hr
  cases exec_answer h with
  | nothing command active empty =>
    cases hr
    have hout := (hinv.enc_inv.finish active).out_done rfl
    have hnsym : s.enc.nsym = 0 := Nat.le_zero.1 (empty ▸ hinv.enc_inv.nsym_le)
    have hnbits : (flushAcc s.enc).nbits = 0 := empty
    rw [Encoder.setFlags_nbits, hnbits] at hout
    exact ⟨command, rfl, hnsym, rfl, hnbits, List.length_eq_zero_iff.1 hout⟩
  | _ => cases hr

/-- Settles O30: an error is answered by error entry of one unit, which is then not ACTIVE. -/
theorem errorEntryFreezesTheUnit : Obligations.ErrorEntryFreezesTheUnit := by
  intro i s t e v h hr
  cases exec_answer h with
  | encError k info command kind =>
    cases hr
    exact .inl ⟨command, rfl, kind, fun j hj =>
      exec_of_not_legalByPhase ((legalByPhase_eq_false j _).2 (.inl ⟨hj, nofun⟩))⟩
  | decError k info d command onward kind =>
    cases hr
    refine .inr ⟨command, rfl, rfl, onward.nbits, onward.out, kind.imp_left And.left, fun htrunc => ?_, fun j hj =>
      exec_of_not_legalByPhase ((legalByPhase_eq_false j _).2 (.inr ⟨hj, nofun⟩))⟩
    obtain ⟨-, rfl⟩ | hmal := kind
    · rfl
    · cases htrunc.symm.trans hmal
  | _ => cases hr

/-! ## Leaving phase ERROR (R170) -/

/-- A command out of phase answers `(ST_ILLEGAL_CMD, 0)` and changes nothing else. -/
theorem exec_next_of_not_legalByPhase {i : Instr} {s t : State} (h : exec i s = .next t)
    (hi : legalByPhase i s = false) : t = s.setResp ⟨.illegalCmd, 0⟩ :=
  (illegalCommand_eq_next s t).1 ((exec_of_not_legalByPhase hi).symm.trans h)

theorem exec_enc_of_error {i : Instr} {s t : State} (h : exec i s = .next t) (herr : s.enc.flags.phase = .error) :
    (t.enc = s.enc ∧ (i.unit? = some .enc → t.resp = some ⟨.illegalCmd, 0⟩)) ∨
      (i = .encStart ∧ t.enc = openEncoder) ∨ (i = .rst ∧ t.enc = Encoder.reset) := by
  have hclosed : sessionOpen s.enc.flags.phase = false := by rw [herr, sessionOpen]
  cases i with
  | encStart =>
    obtain rfl := (execEncStart_next s t).1 h
    exact .inr (.inl ⟨rfl, rfl⟩)
  | encPut _ | encEnd =>
    obtain rfl := exec_next_of_not_legalByPhase h hclosed
    exact .inl ⟨rfl, fun _ => rfl⟩
  | decStart _ | decPut _ | decEnd | rdreg _ =>
    exact .inl ⟨(exec_effect h).enc.eq_of_not_actsOn rfl, nofun⟩
  | rst =>
    obtain rfl := (execRst_next s t).1 h
    exact .inr (.inr ⟨rfl, rfl⟩)

theorem exec_dec_of_error {i : Instr} {s t : State} (h : exec i s = .next t) (herr : s.dec.flags.phase = .error) :
    (t.dec = s.dec ∧ (i.unit? = some .dec → t.resp = some ⟨.illegalCmd, 0⟩)) ∨
      (∃ n, i = .decStart n ∧ t.dec = openDecoder n) ∨ (i = .rst ∧ t.dec = Decoder.reset) := by
  have hclosed : sessionOpen s.dec.flags.phase = false := by rw [herr, sessionOpen]
  cases i with
  | encStart | encPut _ | encEnd | rdreg _ =>
    exact .inl ⟨(exec_effect h).dec.eq_of_not_actsOn rfl, nofun⟩
  | decStart n =>
    obtain ⟨-, rfl⟩ | ⟨-, -, rfl⟩ := execDecStart_next h
    · exact .inl ⟨rfl, fun _ => rfl⟩
    · exact .inr (.inl ⟨n, rfl, rfl⟩)
  | decPut _ | decEnd =>
    obtain rfl := exec_next_of_not_legalByPhase h hclosed
    exact .inl ⟨rfl, fun _ => rfl⟩
  | rst =>
    obtain rfl := (execRst_next s t).1 h
    exact .inr (.inr ⟨rfl, rfl⟩)

/-- Settles O31: of a unit's own commands only its START is legal in phase ERROR, and of the others only RST acts on the
unit. -/
theorem errorPhaseIsLeftOnlyByStartOrReset : Obligations.ErrorPhaseIsLeftOnlyByStartOrReset :=
  fun _ _ _ h => ⟨exec_enc_of_error h, exec_dec_of_error h⟩

end Sys2Proof.Machine
end

section
/-! Sessions forget what came before (R192): a START command makes its unit the same on any two states of one instance,
and the unit's own commands keep it so. -/

namespace Sys2Proof.Machine

/-! ## What a START command leaves -/

/-- A START command completes alike on any two states of one instance, to the same unit and the same response. -/
def ForgetsUnit (u : UnitName) (i : Instr) (p : Params) : Prop :=
  ∀ s s' t : State, s.params = p → s'.params = p → exec i s = .next t →
    ∃ t', exec i s' = .next t' ∧ SameUnits (· = u) t t' ∧ t.resp = t'.resp

theorem encStart_forgetsUnit (p : Params) : ForgetsUnit .enc .encStart p := by
  intro s s' t hs hs' ht
  obtain rfl := (execEncStart_next s t).1 ht
  exact ⟨_, exec_encStart s', ⟨hs.trans hs'.symm, fun _ => rfl, nofun⟩, rfl⟩

/-- A count that fits is needed: one that does not is answered as illegal, and the old session stands (log 13). -/
theorem decStart_forgetsUnit {p : Params} {n : Nat} (hn : n < 2 ^ p.cntw) : ForgetsUnit .dec (.decStart n) p := by
  intro s s' t hs hs' ht
  subst hs
  obtain ⟨hover, -⟩ | ⟨-, hd, rfl⟩ := execDecStart_next ht
  · exact absurd hn (not_lt.2 hover)
  · rw [← hs'] at hd hn
    exact ⟨_, exec_decStart hd hn, ⟨hs'.symm, nofun, fun _ => rfl⟩, rfl⟩

/-! ## The commands after it -/

/-- Commands of unit `u` complete alike, to the same unit and the same last response, from two states that agree on
both. -/
theorem execAll_unit?_sameUnits {u : UnitName} {is : List Instr} (his : ∀ i ∈ is, i.unit? = some u) {s s' t : State}
    (h : SameUnits (· = u) s s') (hresp : s.resp = s'.resp) (ht : execAll is s = .next t) :
    ∃ t', execAll is s' = .next t' ∧ SameUnits (· = u) t t' ∧ t.resp = t'.resp := by
  induction is generalizing s s' with
  | nil =>
    cases ht
    exact ⟨s', rfl, h, hresp⟩
  | cons i is ih =>
    obtain ⟨hi, his⟩ := List.forall_mem_cons.1 his
    obtain ⟨s₁, hs₁, ht⟩ := execAll_cons_eq_next.1 ht
    obtain ⟨-, s₁', hs₁', h₁, hresp₁, -⟩ := exec_unit?_sameUnits hi h hs₁
    obtain ⟨t', ht', same⟩ := ih his h₁ hresp₁ ht
    exact ⟨t', execAll_cons_eq_next.2 ⟨s₁', hs₁', ht'⟩, same⟩

theorem execAll_session_sameUnits {u : UnitName} {start : Instr} {is : List Instr} {s s' t : State}
    (hstart : ForgetsUnit u start s.params) (hparams : s.params = s'.params) (his : ∀ i ∈ is, i.unit? = some u)
    (ht : execAll (start :: is) s = .next t) :
    ∃ t', execAll (start :: is) s' = .next t' ∧ SameUnits (· = u) t t' ∧ t.resp = t'.resp := by
  obtain ⟨s₁, hs₁, ht⟩ := execAll_cons_eq_next.1 ht
  obtain ⟨s₁', hs₁', h₁, hresp₁⟩ := hstart s s' s₁ rfl hparams.symm hs₁
  obtain ⟨t', ht', same⟩ := execAll_unit?_sameUnits his h₁ hresp₁ ht
  exact ⟨t', execAll_cons_eq_next.2 ⟨s₁', hs₁', ht'⟩, same⟩

/-- Settles O41: the START command makes the unit and the response the same, and the rest of the session sees nothing
else. -/
theorem sessionsForgetWhatCameBefore : Obligations.SessionsForgetWhatCameBefore := by
  intro is s s' t hparams
  constructor
  · intro his ht
    obtain ⟨t', ht', same, hresp⟩ := execAll_session_sameUnits (encStart_forgetsUnit _) hparams his ht
    exact ⟨t', ht', (same.enc rfl).symm, hresp.symm⟩
  · intro n hn his ht
    obtain ⟨t', ht', same, hresp⟩ := execAll_session_sameUnits (decStart_forgetsUnit hn) hparams his ht
    exact ⟨t', ht', (same.dec rfl).symm, hresp.symm⟩

end Sys2Proof.Machine
end
